-- ==== Sys2Proof/Word.lean ====
section
/-! DEFINITION. The words the block works on: bytes of BUF, 16-bit geometry fields and 32-bit registers
(00_scope.md R9, R10), and the two colour records of the codec (20_memory.md R48, R51). -/

namespace Sys2Proof

/-- One byte of BUF, or one 8-bit register field. Bit 0 is the least significant (R10). -/
abbrev Byte := BitVec 8

/-- A 16-bit unsigned geometry field (R9, R25). -/
abbrev Half := BitVec 16

/-- A 32-bit register, command word or host datum (R9). -/
abbrev Word := BitVec 32

/-- An RGB triple, in the byte order R, G, B of a pixel in BUF (R48, R51). -/
structure Rgb where
  r : Byte
  g : Byte
  b : Byte
deriving DecidableEq, Repr

/-- Black, `(0, 0, 0)`: the colour of an index with no palette entry (R98). -/
def Rgb.black : Rgb := { r := 0, g := 0, b := 0 }

/-- A source pixel: its colour, and its alpha byte exactly when the grid has four channels (R48, R75). -/
structure Pixel where
  rgb : Rgb
  alpha : Option Byte
deriving DecidableEq, Repr

end Sys2Proof
end

