-- ==== Sys2Proof/Config.lean ====
section
/-! DEFINITION. What one implementation fixes: the named constants of 00_scope.md R7, the identification
constants of 10_state.md R19 and R20, and the free values, which have no body and of which nothing can be
proved (20_memory.md R53, 70_reset_and_hazards.md R134). -/

namespace Sys2Proof.Config

/-- BYTES_PER_LINE: bytes per scanline, in every mode (R7). -/
abbrev bytesPerLine : Nat := 80

/-- BANKS: interleaved banks of screen memory (R7). -/
abbrev banks : Nat := 8

/-- BANK_SIZE: bytes per bank (R7). -/
abbrev bankSize : Nat := 2048

/-- SCREEN_LINES: output scanlines of DEINT (R7). -/
abbrev screenLines : Nat := 200

/-- SCREEN_BYTES: the size of a banked screen dump, `BANKS * BANK_SIZE` (R7). -/
abbrev screenBytes : Nat := banks * bankSize

/-- HWPAL_SIZE: hardware colour codes 0..26 (R7). -/
abbrev hwpalSize : Nat := 27

/-- INK_COUNT: logical inks 0..15 (R7). -/
abbrev inkCount : Nat := 16

/-- TOL_DEFAULT: the reset value of MATCH_TOL (R7). -/
abbrev tolDefault : Byte := 8

/-- ALPHA_DEFAULT: the reset value of ALPHA_THR (R7). -/
abbrev alphaDefault : Byte := 254

/-- The size of the register space REG, in bytes (R17, R39). -/
abbrev regSpace : Nat := 4096

/-- What ID reads: the ASCII bytes "BPU1" (R19). -/
abbrev idValue : Word := 0x42505531

/-- What VERSION reads: major 1, minor 0 (R20). -/
abbrev versionValue : Word := 0x00010000

/-- FREE VALUE (log entry 3): the byte of BUF at an offset that nothing has written since the power-on
numbered by the first argument (R53, U1). -/
opaque powerOnByte : Nat → Nat → Byte

/-- FREE VALUE (log entry 4): the byte of BUF at an offset in the write range of the command that a reset
abandoned, the abandonment numbered by the first argument (R134, U2). -/
opaque abandonedByte : Nat → Nat → Byte

end Sys2Proof.Config
end

