-- ==== Sys2Proof/Syntax.lean ====
section
/-! DEFINITION. The syntax of the block: its twelve commands (30_encoding.md R61), the raw fields of a command
word (R59), the registers of the register space (10_state.md R17), and the turns of the two agents and of the
reset input (40_command_engine.md R64, 20_memory.md R42, 70_reset_and_hazards.md R133). -/

namespace Sys2Proof

/-- The twelve operations, one constructor for each row of the opcode table (R61). A command word carries no
operand of its own: every operand is read from the operand registers (R60). -/
inductive Instr where
  | nop
  | matchPixel
  | pack
  | unpack
  | encode
  | sheet
  | xform
  | bitrev
  | deint
  | decode
  | pallook
  | pixidx
deriving DecidableEq, Repr

/-- The two fields of the one command format, before any check (R59). -/
structure CmdFields where
  op : BitVec 4
  rsv : BitVec 28
deriving DecidableEq, Repr

/-- What an offset of the register space names (R17): a register, an entry of a palette file, the part of the
HWPAL window that has no entry, or a reserved offset. -/
inductive Reg where
  | id | version | cmd | status | irqen
  | src | dst | sprW | sprH | gridW | gridH | offX | offY | gapX | gapY | orgX | orgY
  | pixfmt | matchRef | matchTol | alphaThr | flags | mode | lines | arg
  | result | count | outlen | outW | outH
  | hwpal (c : Fin Config.hwpalSize)
  | hwpalHole
  | inkmap (i : Fin Config.inkCount)
  | reserved
deriving DecidableEq, Repr

/-- How a register takes a host write (R17): not at all, at any time, or only while BUSY = 0. -/
inductive WriteKind where
  | ignored
  | always
  | whenIdle
deriving DecidableEq, Repr

/-- The two address spaces the host reaches (R39). -/
inductive Space where
  | reg
  | buf
deriving DecidableEq, Repr

/-- One host access: its space, its size in bytes, its byte offset and, for a write, its datum, of which the
low `size` bytes count. Any size and any offset can be asked for; R42 says which are legal. -/
inductive HostAccess where
  | read (sp : Space) (size off : Nat)
  | write (sp : Space) (size off : Nat) (v : Word)
deriving DecidableEq, Repr

/-- Who moves in one step: the engine, the host with one access, or the reset input, which leaves BUF powered
(`reset`) or is a power-on (`powerOn`) (R64, R133, R53). -/
inductive Turn where
  | engine
  | host (a : HostAccess)
  | reset
  | powerOn
deriving DecidableEq, Repr

end Sys2Proof
end

