-- ==== Sys2Proof/WellFormed.lean ====
section
/-! DEFINITION. Well-formedness: of the raw fields of a command word (30_encoding.md R62), and of a command,
which has no operand that could be out of range (R60). -/

namespace Sys2Proof

/-- The reserved field is zero (R59, R62). -/
def CmdFields.rsvOk (f : CmdFields) : Bool := f.rsv == 0

/-- The operation code is one of the twelve assigned ones; 0xC..0xF are reserved (R61, R62). -/
def CmdFields.opOk (f : CmdFields) : Bool := f.op.toNat < 12

/-- A command word is legal when both its fields are (R62). -/
def CmdFields.wellFormed (f : CmdFields) : Bool := f.opOk && f.rsvOk

/-- Every command is well formed: it carries no immediate, register number or mode field (R60). -/
def Instr.wellFormed : Instr → Bool
  | .nop => true
  | .matchPixel => true
  | .pack => true
  | .unpack => true
  | .encode => true
  | .sheet => true
  | .xform => true
  | .bitrev => true
  | .deint => true
  | .decode => true
  | .pallook => true
  | .pixidx => true

end Sys2Proof
end

