-- ==== Sys2Proof/Decode.lean ====
section
/-! DEFINITION. The decoder of a command word, total and rejecting by name, and the encoder, both from the
opcode map of 30_encoding.md R61 and the format of R59. -/

namespace Sys2Proof

/-- Why a word is no command (R62): its operation code is reserved, or its reserved field is not zero. -/
inductive DecodeError where
  | reservedBits
  | reservedOp
deriving DecidableEq, Repr

/-- The two fields of a command word: OP in bits 3..0 and RSV in bits 31..4 (R59). -/
def cmdFields (w : Word) : CmdFields :=
  { op := w.extractLsb' 0 4, rsv := w.extractLsb' 4 28 }

/-- The operation an OP value selects (R61); 0xC..0xF select none (R62). -/
def opInstr (op : BitVec 4) : Option Instr :=
  match op.toNat with
  | 0x0 => some .nop
  | 0x1 => some .matchPixel
  | 0x2 => some .pack
  | 0x3 => some .unpack
  | 0x4 => some .encode
  | 0x5 => some .sheet
  | 0x6 => some .xform
  | 0x7 => some .bitrev
  | 0x8 => some .deint
  | 0x9 => some .decode
  | 0xA => some .pallook
  | 0xB => some .pixidx
  | _ => none

/-- The command a 32-bit word stands for: RSV must be zero, and OP alone then tells the operation (R59, R62).
Both rejections end in the same error code, BAD_OP. -/
def decode (w : Word) : Except DecodeError Instr :=
  let f := cmdFields w
  if f.rsvOk then
    match opInstr f.op with
    | some i => .ok i
    | none => .error .reservedOp
  else .error .reservedBits

/-- The word of each command (R61, column "word"). -/
def encode : Instr → Word
  | .nop => 0x00000000
  | .matchPixel => 0x00000001
  | .pack => 0x00000002
  | .unpack => 0x00000003
  | .encode => 0x00000004
  | .sheet => 0x00000005
  | .xform => 0x00000006
  | .bitrev => 0x00000007
  | .deint => 0x00000008
  | .decode => 0x00000009
  | .pallook => 0x0000000A
  | .pixidx => 0x0000000B

/-- The low `nbits` bits of a numeral as a command word; the bits above are zero. -/
def tableWord (nbits w : Nat) : Word := BitVec.ofNat 32 (w % 2 ^ nbits)

/-- The command the decoder reads from a word of the opcode table, whose bits are numbered as a 32-bit register's. -/
def decodeTableWord (nbits w : Nat) : Option Instr :=
  match decode (tableWord nbits w) with
  | .ok i => some i
  | .error _ => none

end Sys2Proof
end

