-- ==== Sys2Proof/Machine/State.lean ====
section
/-! DEFINITION. The state of the block as plain data (10_state.md), the reasons a step can stop, and the state
right after reset (R38, R133). -/

namespace Sys2Proof.Machine

/-- The error codes STATUS.ECODE can hold (60_exceptions.md R118); 9..15 are never produced. -/
inductive ErrorCode where
  | none
  | badOp
  | badMode
  | badArg
  | badGeom
  | badAddr
  | overlap
  | inkRange
  | palRange
deriving DecidableEq, Repr

/-- The stored fields of STATUS (R22). BUSY is not among them: it is 1 exactly while PENDING is valid (R36), so it
is stored once, as `State.pending`. -/
structure Status where
  done : Bool
  err : Bool
  ovr : Bool
  ecode : ErrorCode
deriving DecidableEq, Repr

/-- IRQEN (R23). -/
structure IrqEnable where
  doneie : Bool
  errie : Bool
  ovrie : Bool
deriving DecidableEq, Repr

/-- FLAGS, the four transform flags (R28). -/
structure TransformFlags where
  inverse : Bool
  mirror : Bool
  mirrorAlign : Bool
  flipV : Bool
deriving DecidableEq, Repr

/-- MODE (R29): the screen mode in bits 1..0, whose value 3 is stored like any other, and DEINT in bit 4. -/
structure ModeReg where
  mode : BitVec 2
  deint : Bool
deriving DecidableEq, Repr

/-- The operand registers, which the host writes and every command reads (R24 to R31). -/
structure OperandRegs where
  src : Word
  dst : Word
  sprW : Half
  sprH : Half
  gridW : Half
  gridH : Half
  offX : Half
  offY : Half
  gapX : Half
  gapY : Half
  orgX : Half
  orgY : Half
  ch4 : Bool
  matchRef : Rgb
  matchTol : Byte
  alphaThr : Byte
  flags : TransformFlags
  mode : ModeReg
  lines : Half
  arg : Word
deriving DecidableEq, Repr

/-- The result registers, which only the engine writes (R32). -/
structure ResultRegs where
  result : Word
  count : Word
  outlen : Word
  outW : Word
  outH : Word
deriving DecidableEq, Repr

/-- One HWPAL entry: its V bit and its colour (R33). -/
structure HwEntry where
  v : Bool
  rgb : Rgb
deriving DecidableEq, Repr

/-- One INKMAP entry: its V bit and its hardware colour code (R34). -/
structure InkEntry where
  v : Bool
  code : BitVec 5
deriving DecidableEq, Repr

/-- BUF as a list of the bytes something has written, by rising offset (R35, R40). An offset that is not listed
holds no stored byte: what it reads as is free (R53; `State.readByte`). -/
structure Memory where
  cells : List Host.Cell
deriving DecidableEq, Repr

/-- The whole machine. The last five fields are the model's own: the schedule of turns still to come, the datum
of the host's last read, the BUF_SIZE parameter, and the counters that number the free draws. -/
structure State where
  /-- STATUS but for BUSY (R22). -/
  status : Status
  /-- IRQEN (R23). -/
  irqen : IrqEnable
  /-- The operand registers (R24 to R31). -/
  opr : OperandRegs
  /-- The result registers (R32). -/
  res : ResultRegs
  /-- HWPAL[0..26] (R33). -/
  hwpal : Vector HwEntry Config.hwpalSize
  /-- INKMAP[0..15] (R34). -/
  inkmap : Vector InkEntry Config.inkCount
  /-- PENDING, valid exactly while STATUS.BUSY = 1 (R36). -/
  pending : Option Word
  /-- The stored bytes of BUF (R35). -/
  buf : Memory
  /-- BUF_SIZE - 1: the open parameter of R8, which no step changes. Any value of the field gives
  `1 <= BUF_SIZE <= 2^32`. -/
  bufLast : Word
  /-- Who moves in the steps to come (R64); when it is empty the engine moves. -/
  turns : List Turn
  /-- The datum the host's last read returned (R44); no rule of the block reads it. -/
  readData : Word
  /-- How many power-ons came before: numbers the draw of unwritten bytes (R53). -/
  powerOns : Nat
  /-- How many commands a reset has abandoned: numbers the draw of their bytes (R134). -/
  abandons : Nat
deriving DecidableEq, Repr

/-- Why a step stops. No command stops: only a host access can. -/
inductive Fault where
  /-- Raised by a host access that is a bus error (R42): a wrong width, a misaligned offset, or an offset outside
  its space. Safe: the spec has a model treat a bus error as a host fault, and no block state changes. -/
  | hostBusError
  /-- Raised by a host access to BUF while BUSY = 1 (R138). Safe: the spec forbids a model to give it a value. -/
  | hostBufWhileBusy
deriving DecidableEq, Repr

/-- Why a command has no meaning. -/
inductive Refusal where
  /-- Raised by an arm of `exec` whose command is not modelled yet; no arm is. Safe. -/
  | notModelled (mnemonic : String)
deriving DecidableEq, Repr

/-- The operand registers at reset (R38). -/
def OperandRegs.reset : OperandRegs where
  src := 0
  dst := 0
  sprW := 0
  sprH := 0
  gridW := 0
  gridH := 0
  offX := 0
  offY := 0
  gapX := 0
  gapY := 0
  orgX := 0
  orgY := 0
  ch4 := false
  matchRef := { r := 0, g := 0, b := 0 }
  matchTol := Config.tolDefault
  alphaThr := Config.alphaDefault
  flags := { inverse := false, mirror := false, mirrorAlign := false, flipV := false }
  mode := { mode := 0, deint := false }
  lines := 200
  arg := 0

/-- INKMAP at reset: the identity, every entry valid (R34, R38). -/
def inkmapReset : Vector InkEntry Config.inkCount :=
  #v[⟨true, 0⟩, ⟨true, 1⟩, ⟨true, 2⟩, ⟨true, 3⟩, ⟨true, 4⟩, ⟨true, 5⟩, ⟨true, 6⟩, ⟨true, 7⟩,
     ⟨true, 8⟩, ⟨true, 9⟩, ⟨true, 10⟩, ⟨true, 11⟩, ⟨true, 12⟩, ⟨true, 13⟩, ⟨true, 14⟩, ⟨true, 15⟩]

/-- The machine right after power-on (R38, R133, R53): every register at its reset value, PENDING invalid, and no
byte of BUF written. BUF_SIZE is 1 MiB there (DESIGN CHOICE, log entry 1: R8 leaves it open; 95_test_vectors.md
takes that value). -/
def State.reset : State where
  status := { done := false, err := false, ovr := false, ecode := .none }
  irqen := { doneie := false, errie := false, ovrie := false }
  opr := OperandRegs.reset
  res := { result := 0, count := 0, outlen := 0, outW := 0, outH := 0 }
  hwpal := Vector.replicate Config.hwpalSize { v := false, rgb := Rgb.black }
  inkmap := inkmapReset
  pending := none
  buf := { cells := [] }
  bufLast := 0xFFFFF
  turns := []
  readData := 0
  powerOns := 0
  abandons := 0

end Sys2Proof.Machine
end

