-- ==== Sys2Proof/Machine/Operands.lean ====
section
/-! DEFINITION. The operands of a command, each read from its operand register as an unsigned number
(30_encoding.md R60, 00_scope.md R12), and the bit and byte-order helpers of R10. -/

namespace Sys2Proof.Machine

/-- `bit(v, n)` (R10). -/
def bit (b : Byte) (n : Nat) : Bool := b.getLsbD n

/-- The field of `len` bits of a word whose lowest bit is `lo` (R10). -/
def field (v : Word) (lo len : Nat) : BitVec len := v.extractLsb' lo len

/-- A word whose field at bit `lo` is `x` and whose other bits are 0 (R10). -/
def place {n : Nat} (x : BitVec n) (lo : Nat) : Word := x.setWidth 32 <<< lo

/-- A word whose bit `n` is `b` and whose other bits are 0 (R10). -/
def placeBit (b : Bool) (n : Nat) : Word := place (BitVec.ofBool b) n

/-- A colour in bits 23..0, R highest (R27, R33). -/
def rgbWord (c : Rgb) : Word := place c.r 16 ||| place c.g 8 ||| place c.b 0

/-- Four bits as a palette index, the first the most significant (R10). -/
def nibble (b3 b2 b1 b0 : Bool) : BitVec 4 :=
  BitVec.ofNat 4 (b3.toNat <<< 3 + b2.toNat <<< 2 + b1.toNat <<< 1 + b0.toNat)

/-- `bpr(w)`: the bytes of one packed row of `w` pixels (R13). -/
def bpr (w : Nat) : Nat := (w + 7) / 8

/-- STATUS.BUSY: PENDING is valid (R22, R36). -/
def State.busy (s : State) : Bool := s.pending.isSome

/-- BUF_SIZE (R8). -/
def State.bufSize (s : State) : Nat := s.bufLast.toNat + 1

/-- SRC as an offset into BUF (R24). -/
def State.srcAddr (s : State) : Nat := s.opr.src.toNat

/-- DST as an offset into BUF (R24). -/
def State.dstAddr (s : State) : Nat := s.opr.dst.toNat

/-- SPR_W (R25). -/
def State.spriteW (s : State) : Nat := s.opr.sprW.toNat

/-- SPR_H (R25). -/
def State.spriteH (s : State) : Nat := s.opr.sprH.toNat

/-- GRID_W (R25). -/
def State.gridW (s : State) : Nat := s.opr.gridW.toNat

/-- GRID_H (R25). -/
def State.gridH (s : State) : Nat := s.opr.gridH.toNat

/-- OFF_X (R25). -/
def State.offX (s : State) : Nat := s.opr.offX.toNat

/-- OFF_Y (R25). -/
def State.offY (s : State) : Nat := s.opr.offY.toNat

/-- GAP_X (R25). -/
def State.gapX (s : State) : Nat := s.opr.gapX.toNat

/-- GAP_Y (R25). -/
def State.gapY (s : State) : Nat := s.opr.gapY.toNat

/-- ORG_X (R25). -/
def State.orgX (s : State) : Nat := s.opr.orgX.toNat

/-- ORG_Y (R25). -/
def State.orgY (s : State) : Nat := s.opr.orgY.toNat

/-- CH: the channel count of the source grid (R48, R60). -/
def State.channels (s : State) : Nat := if s.opr.ch4 then 4 else 3

/-- FLAGS.INVERSE (R28). -/
def State.inverse (s : State) : Bool := s.opr.flags.inverse

/-- LINES (R30). -/
def State.lineCount (s : State) : Nat := s.opr.lines.toNat

/-- The bytes of one packed sprite, `bpr(W) * H` (R50). -/
def State.packedSize (s : State) : Nat := bpr s.spriteW * s.spriteH

/-- The bytes of one mask, `W * H` (R49). -/
def State.maskSize (s : State) : Nat := s.spriteW * s.spriteH

/-- The bytes of the source pixel grid, `GRID_W * GRID_H * CH` (R48). -/
def State.gridSize (s : State) : Nat := s.gridW * s.gridH * s.channels

end Sys2Proof.Machine
end

