-- ==== Sys2Proof/Machine/Flags.lean ====
section
/-! DEFINITION. The STATUS word and the interrupt output, both computed from the state (10_state.md R22,
60_exceptions.md R124). -/

namespace Sys2Proof.Machine

/-- The value of an error code in STATUS[11:8] (R118). -/
def ErrorCode.bits : ErrorCode → BitVec 4
  | .none => 0
  | .badOp => 1
  | .badMode => 2
  | .badArg => 3
  | .badGeom => 4
  | .badAddr => 5
  | .overlap => 6
  | .inkRange => 7
  | .palRange => 8

/-- What a read of STATUS gives: ECODE in [11:8], OVR, ERR, DONE and BUSY in [3:0], reserved bits 0 (R22, R18). -/
def State.statusWord (s : State) : Word :=
  placeBit s.busy 0 ||| placeBit s.status.done 1 ||| placeBit s.status.err 2 ||| placeBit s.status.ovr 3
    ||| place s.status.ecode.bits 8

/-- The interrupt output IRQ, a function of STATUS and IRQEN that holds no bit of its own (R124). -/
def State.irq (s : State) : Bool :=
  (s.status.done && s.irqen.doneie) || (s.status.err && s.irqen.errie) || (s.status.ovr && s.irqen.ovrie)

end Sys2Proof.Machine
end

