-- ==== Sys2Proof/Machine/Ops.lean ====
section
/-! DEFINITION. The named operations every meaning is written over: BUF (20_memory.md), the range checks (R46,
R47), error entry and error return (60_exceptions.md R119, R120, R123), and issue and completion of a command
(40_command_engine.md R65 to R70). -/

namespace Sys2Proof.Machine

/-! ## BUF -/

/-- The stored byte at an offset, if anything has written it. -/
def Memory.get? (m : Memory) (a : Nat) : Option Byte := m.cells.lookup a

/-- Consecutive bytes as cells, the first at offset `a`. -/
def cellsAt (a : Nat) : List Byte → List Host.Cell
  | [] => []
  | b :: bs => (a, b) :: cellsAt (a + 1) bs

/-- Store consecutive bytes, the first at offset `a`; no other byte changes (R44, R70). Offsets stay in rising
order, and storing nothing changes nothing. -/
def Memory.writeBlock (m : Memory) (a : Nat) (bytes : List Byte) : Memory :=
  match bytes with
  | [] => m
  | _ :: _ =>
    { cells := m.cells.filter (fun c => decide (c.1 < a)) ++ cellsAt a bytes
        ++ m.cells.filter (fun c => decide (a + bytes.length ≤ c.1)) }

/-- The canonical form: offsets strictly rising. An unlisted offset holds no stored byte, so no entry can equal
what an unlisted offset holds. -/
def Memory.wf (m : Memory) : Bool := decide (m.cells.Pairwise (fun c d => c.1 < d.1))

/-- Every stored byte lies below `n` (R40). -/
def Memory.below (m : Memory) (n : Nat) : Bool := m.cells.all (fun c => decide (c.1 < n))

/-- One byte of BUF (R11, MemRead): the stored byte, or the free draw of a byte that nothing has written since
power-on (R53; log entry 3). -/
def State.readByte (s : State) (a : Nat) : Byte :=
  match s.buf.get? a with
  | some b => b
  | none => Config.powerOnByte s.powerOns a

/-- `n` consecutive bytes of BUF (R11, MemRead). -/
def State.readBytes (s : State) (a n : Nat) : List Byte := (List.range n).map (fun k => s.readByte (a + k))

/-! ## Range checks -/

/-- `[a, a+n)` is in BUF: it is empty, or its exact end is at most BUF_SIZE (R46). -/
def State.inBuf (s : State) (a n : Nat) : Bool := decide (n = 0 ∨ a + n ≤ s.bufSize)

/-- `[a, a+n)` and `[b, b+m)` overlap (R47). -/
def overlaps (a n b m : Nat) : Bool := decide (0 < n ∧ 0 < m ∧ a < b + m ∧ b < a + n)

/-- The BAD_ADDR check of a command that reads `n` bytes at SRC and writes `m` bytes at DST (R46, R69). -/
def State.rangesBad (s : State) (n m : Nat) : Bool := !s.inBuf s.srcAddr n || !s.inBuf s.dstAddr m

/-- The OVERLAP check of the same command (R47, R69). -/
def State.rangesOverlap (s : State) (n m : Nat) : Bool := overlaps s.srcAddr n s.dstAddr m

/-- The first class that fails, of checks listed in the order of R69. -/
def firstFailure : List (Bool × ErrorCode) → Option ErrorCode
  | [] => none
  | (bad, e) :: rest => if bad then some e else firstFailure rest

/-! ## Errors -/

/-- ECODE keeps the first error: it is loaded only when ERR goes from 0 to 1 (R22, R122). -/
def Status.raise (st : Status) (e : ErrorCode) : Status :=
  { st with err := true, ecode := if st.err then st.ecode else e }

/-- Error entry (R119): the command ends with ERR and DONE set, and nothing else changes. -/
def errorEntry (e : ErrorCode) (s : State) : State :=
  { s with status := { s.status.raise e with done := true }, pending := none }

/-- A register-write error (R120): DONE, BUSY and OVR keep their values. -/
def registerError (e : ErrorCode) (s : State) : State := { s with status := s.status.raise e }

/-- Error return, a host write of `v` to STATUS (R22, R123): each 1 in bits 3..1 clears its flag, clearing ERR
clears ECODE with it, and BUSY is not touched. -/
def statusWrite (v : Word) (s : State) : State :=
  { s with status :=
    { done := s.status.done && !v.getLsbD 1
      err := s.status.err && !v.getLsbD 2
      ovr := s.status.ovr && !v.getLsbD 3
      ecode := if v.getLsbD 2 then .none else s.status.ecode } }

/-- A discarded write sets OVR and nothing else (R66, R68). -/
def setOverrun (s : State) : State := { s with status := { s.status with ovr := true } }

/-! ## Issue and completion -/

/-- A command is accepted: PENDING takes its word, BUSY becomes 1 and DONE 0 (R65). -/
def accept (v : Word) (s : State) : State :=
  { s with pending := some v, status := { s.status with done := false } }

/-- A host write of `v` to CMD (R65): discarded while BUSY (R66), rejected while ERR (R67), accepted otherwise. -/
def issue (v : Word) (s : State) : State :=
  if s.busy then setOverrun s
  else if s.status.err then { s with status := { s.status with ovr := true, done := true } }
  else accept v s

/-- Successful completion (R70): the output bytes go to BUF from DST on, the result registers take their new
values, OUTLEN counts the bytes written, and STATUS reports DONE. -/
def complete (res : ResultRegs) (bytes : List Byte) (s : State) : State :=
  { s with
    buf := s.buf.writeBlock s.dstAddr bytes
    res := { res with outlen := BitVec.ofNat 32 bytes.length }
    status := { s.status with done := true }
    pending := none }

/-- The completion step of one command (R70): error entry if a check failed, else its outputs. -/
def command (err : Option ErrorCode) (res : ResultRegs) (bytes : List Byte) (s : State) :
    Host.Outcome State Fault Refusal :=
  match err with
  | some e => .next (errorEntry e s)
  | none => .next (complete res bytes s)

end Sys2Proof.Machine
end

