-- ==== Sys2Proof/Machine/Deinterleave.lean ====
section
/-! DEFINITION. memory_bank_deinterleaver: the bank map and DEINT (44_deinterleave.md). -/

namespace Sys2Proof.Machine

/-- `src_off`: where scanline `L` starts in a banked screen dump (R104). -/
def bankedLine (l : Nat) : Nat :=
  (l % Config.banks) * Config.bankSize + (l / Config.banks) * Config.bytesPerLine

/-- The scanline bytes of one bank, 25 rows of 80 (R105). -/
def bankLineBytes : Nat := Config.screenLines / Config.banks * Config.bytesPerLine

/-- The spare bytes at the end of one bank (R105). -/
def bankSpare : Nat := Config.bankSize - bankLineBytes

/-- The checks of DEINT (R107). -/
def deintCheck (s : State) : Option ErrorCode :=
  firstFailure
    [(s.rangesBad Config.screenBytes Config.screenBytes, .badAddr),
     (s.rangesOverlap Config.screenBytes Config.screenBytes, .overlap)]

/-- The 200 scanlines in linear order (R104, R107). -/
def deintLines (s : State) : List Byte :=
  (List.range Config.screenLines).flatMap (fun l =>
    s.readBytes (s.srcAddr + bankedLine l) Config.bytesPerLine)

/-- The spare bytes of the banks, in bank order (R106, R107). -/
def deintTail (s : State) : List Byte :=
  (List.range Config.banks).flatMap (fun k =>
    s.readBytes (s.srcAddr + (Config.bankSize * k + bankLineBytes)) bankSpare)

/-- DEINT (R107): de-interleave a screen dump. -/
def execDeint (s : State) : Host.Outcome State Fault Refusal :=
  command (deintCheck s) s.res (deintLines s ++ deintTail s) s

end Sys2Proof.Machine
end

