-- ==== Sys2Proof/Machine/DecodePalette.lean ====
section
/-! DEFINITION. multi_bit_pixel_deinterleaver and palette_lut: PIXIDX, PALLOOK and DECODE (43_decode_palette.md). -/

namespace Sys2Proof.Machine

/-! ## Bit-to-pixel extraction -/

/-- `ppb`: the pixels in one byte (R95). The mode value 3 selects none. -/
def pixelsPerByte (mode : BitVec 2) : Nat :=
  match mode.toNat with
  | 0 => 2
  | 1 => 4
  | 2 => 8
  | _ => 0

/-- `idx2`: one bit a pixel (R92). -/
def idx2 (b : Byte) (i : Nat) : BitVec 4 := nibble false false false (bit b (7 - i))

/-- `idx1`: two bits a pixel, split across the nibbles (R93). -/
def idx1 (b : Byte) (i : Nat) : BitVec 4 := nibble false false (bit b (3 - i)) (bit b (7 - i))

/-- `idx0`: four bits a pixel, slot 0 the left pixel and slot 1 the right (R94). -/
def idx0 (b : Byte) (i : Nat) : BitVec 4 :=
  if i = 0 then nibble (bit b 1) (bit b 5) (bit b 3) (bit b 7)
  else nibble (bit b 0) (bit b 4) (bit b 2) (bit b 6)

/-- `idx_mode`: the palette index of one pixel slot (R95). -/
def pixelIndex (mode : BitVec 2) (b : Byte) (i : Nat) : BitVec 4 :=
  match mode.toNat with
  | 0 => idx0 b i
  | 1 => idx1 b i
  | _ => idx2 b i

/-- The operation uses MODE and MODE[1:0] = 3 (R69, R99, R103). -/
def modeBad (s : State) : Bool := s.opr.mode.mode == 3

/-- The indices of one byte, slot `i` in nibble `i`, unused nibbles 0 (R99). -/
def packIndices (mode : BitVec 2) (b : Byte) : Word :=
  (List.range (pixelsPerByte mode)).foldl
    (fun r i => r ||| place (pixelIndex mode b i) (4 * i)) 0

/-- The checks of PIXIDX (R99). -/
def pixidxCheck (s : State) : Option ErrorCode := firstFailure [(modeBad s, .badMode)]

/-- PIXIDX (R99): the pixel indices of ARG[7:0]. -/
def execPixidx (s : State) : Host.Outcome State Fault Refusal :=
  command (pixidxCheck s)
    { s.res with result := packIndices s.opr.mode.mode (field s.opr.arg 0 8) } [] s

/-! ## Palette -/

/-- HWPAL[c]; a code above 26, which no reachable state holds in INKMAP (R37), has no entry. -/
def State.hwEntry (s : State) (code : BitVec 5) : HwEntry :=
  if h : code.toNat < Config.hwpalSize then s.hwpal[code.toNat] else { v := false, rgb := Rgb.black }

/-- INKMAP[i]. -/
def State.inkEntry (s : State) (i : BitVec 4) : InkEntry := s.inkmap[i.toNat]'i.isLt

/-- `EFF`: the colour of an index where both palette levels are defined, `none` where one is not (R97). -/
def effective (s : State) (i : BitVec 4) : Option Rgb :=
  let e := s.inkEntry i
  if e.v then
    let h := s.hwEntry e.code
    if h.v then some h.rgb else none
  else none

/-- `EFF(i).rgb`: black where the palette has no entry, without error (R98). -/
def effectiveRgb (s : State) (i : BitVec 4) : Rgb := (effective s i).getD Rgb.black

/-- A looked-up colour as RESULT holds it: hit in bit 24, then R, G, B (R100). -/
def paletteWord (c : Option Rgb) : Word :=
  placeBit c.isSome 24 ||| rgbWord (c.getD Rgb.black)

/-- The checks of PALLOOK (R100). -/
def pallookCheck (s : State) : Option ErrorCode :=
  firstFailure [(decide (15 < s.opr.arg.toNat), .badArg)]

/-- PALLOOK (R100): look up the index ARG in the effective palette. -/
def execPallook (s : State) : Host.Outcome State Fault Refusal :=
  command (pallookCheck s) { s.res with result := paletteWord (effective s (field s.opr.arg 0 4)) } [] s

/-! ## DECODE -/

/-- OUT_W: the width of the decoded grid (R102). -/
def outWidth (mode : BitVec 2) : Nat :=
  match mode.toNat with
  | 0 => 320
  | 1 => 320
  | 2 => 640
  | _ => 0

/-- How many output rows one scanline gives: mode 2 duplicates it (R102). -/
def rowCopies (mode : BitVec 2) : Nat := if mode.toNat = 2 then 2 else 1

/-- How many output columns one pixel gives: mode 0 duplicates it (R102). -/
def pixelCopies (mode : BitVec 2) : Nat := if mode.toNat = 0 then 2 else 1

/-- OUT_H: the height of the decoded grid of `n` scanlines (R102). -/
def outHeight (mode : BitVec 2) (n : Nat) : Nat := rowCopies mode * n

/-- `line_addr`: where DECODE reads scanline `L` (R101). -/
def lineAddr (s : State) (l : Nat) : Nat :=
  s.srcAddr + (if s.opr.mode.deint then bankedLine l else Config.bytesPerLine * l)

/-- The bytes DECODE's read range spans (R103). -/
def State.decodeReadSize (s : State) : Nat :=
  if s.opr.mode.deint then Config.screenBytes else Config.bytesPerLine * s.lineCount

/-- The bytes DECODE writes, `OUT_W * OUT_H * 3` (R102). -/
def State.decodeSize (s : State) : Nat :=
  outWidth s.opr.mode.mode * outHeight s.opr.mode.mode s.lineCount * 3

/-- The checks of DECODE (R103). -/
def decodeCheck (s : State) : Option ErrorCode :=
  firstFailure
    [(modeBad s, .badMode),
     (decide (s.lineCount = 0 ∨ (s.opr.mode.deint = true ∧ Config.screenLines < s.lineCount)), .badGeom),
     (s.rangesBad s.decodeReadSize s.decodeSize, .badAddr),
     (s.rangesOverlap s.decodeReadSize s.decodeSize, .overlap)]

/-- The three bytes of an output pixel (R51). -/
def rgbBytes (c : Rgb) : List Byte := [c.r, c.g, c.b]

/-- The output bytes of one source byte: each of its pixels through the palette, duplicated in mode 0 (R103). -/
def decodeByte (s : State) (b : Byte) : List Byte :=
  (List.range (pixelsPerByte s.opr.mode.mode)).flatMap (fun i =>
    (List.replicate (pixelCopies s.opr.mode.mode)
      (rgbBytes (effectiveRgb s (pixelIndex s.opr.mode.mode b i)))).flatten)

/-- One output row of scanline `L` (R103). -/
def decodeRow (s : State) (l : Nat) : List Byte :=
  (List.range Config.bytesPerLine).flatMap (fun x => decodeByte s (s.readByte (lineAddr s l + x)))

/-- The output bytes of DECODE: the row of each scanline, duplicated in mode 2 (R103). -/
def decodeBytes (s : State) : List Byte :=
  (List.range s.lineCount).flatMap (fun l =>
    (List.replicate (rowCopies s.opr.mode.mode) (decodeRow s l)).flatten)

/-- DECODE (R103): decode screen bytes into an RGB grid. -/
def execDecode (s : State) : Host.Outcome State Fault Refusal :=
  command (decodeCheck s)
    { s.res with
      outW := BitVec.ofNat 32 (outWidth s.opr.mode.mode)
      outH := BitVec.ofNat 32 (outHeight s.opr.mode.mode s.lineCount) } (decodeBytes s) s

end Sys2Proof.Machine
end

