-- ==== Sys2Proof/Machine/Nop.lean ====
section
/-! DEFINITION. NOP (40_command_engine.md R73). -/

namespace Sys2Proof.Machine

/-- NOP (R73): no check, no output; OUTLEN becomes 0. -/
def execNop (s : State) : Host.Outcome State Fault Refusal := command none s.res [] s

end Sys2Proof.Machine
end

