-- ==== Sys2Proof/Machine/ColorMatch.lean ====
section
/-! DEFINITION. rgb_color_matcher_with_tolerance (41_color_match.md). -/

namespace Sys2Proof.Machine

/-- `|a - b|`, exact (R75, R12). -/
def absDiff (a b : Byte) : Nat := (a.toNat - b.toNat) + (b.toNat - a.toNat)

/-- `match_rgb`: all three channels are within the tolerance (R75). -/
def matchRgb (s : State) (c : Rgb) : Bool :=
  decide (absDiff c.r s.opr.matchRef.r ≤ s.opr.matchTol.toNat
    ∧ absDiff c.g s.opr.matchRef.g ≤ s.opr.matchTol.toNat
    ∧ absDiff c.b s.opr.matchRef.b ≤ s.opr.matchTol.toNat)

/-- `on_rgb`: the reference colour is off, or on under INVERSE (R76). -/
def onRgb (s : State) (c : Rgb) : Bool := matchRgb s c == s.inverse

/-- A pixel with alpha below the threshold is transparent; without alpha none is (R77). -/
def transparent (s : State) (p : Pixel) : Bool :=
  match p.alpha with
  | none => false
  | some a => decide (a.toNat < s.opr.alphaThr.toNat)

/-- `sample` (R78). -/
def sample (s : State) (p : Pixel) : Bool := onRgb s p.rgb && !transparent s p

/-- The pixel whose CH bytes start at an offset (R48). -/
def pixelAt (s : State) (a : Nat) : Pixel :=
  { rgb := { r := s.readByte a, g := s.readByte (a + 1), b := s.readByte (a + 2) }
    alpha := if s.opr.ch4 then some (s.readByte (a + 3)) else none }

/-- The checks of MATCH (R80). -/
def matchCheck (s : State) : Option ErrorCode :=
  firstFailure [(!s.inBuf s.srcAddr s.channels, .badAddr)]

/-- MATCH (R80): sample the pixel at SRC. -/
def execMatch (s : State) : Host.Outcome State Fault Refusal :=
  command (matchCheck s)
    { s.res with result := placeBit (sample s (pixelAt s s.srcAddr)) 0 } [] s

end Sys2Proof.Machine
end

