-- ==== Sys2Proof/Machine/Transform.lean ====
section
/-! DEFINITION. sprite_bit_flipper: the bit reversal, the sprite transform, XFORM and BITREV (45_transform.md). -/

namespace Sys2Proof.Machine

/-- `rev8`: nibble swap, pair swap, single-bit swap, in that order (R109). -/
def rev8 (b : Byte) : Byte :=
  let t1 := ((b &&& 0xF0) >>> 4) ||| ((b &&& 0x0F) <<< 4)
  let t2 := ((t1 &&& 0xCC) >>> 2) ||| ((t1 &&& 0x33) <<< 2)
  ((t2 &&& 0xAA) >>> 1) ||| ((t2 &&& 0x55) <<< 1)

/-- FLIP_V: reverse the row order (R111). -/
def flipStep (f : TransformFlags) (rows : List (List Byte)) : List (List Byte) :=
  if f.flipV then rows.reverse else rows

/-- MIRROR, which MIRROR_ALIGN implies: reverse the bits of each byte in place (R111). -/
def mirrorStep (f : TransformFlags) (rows : List (List Byte)) : List (List Byte) :=
  if f.mirror || f.mirrorAlign then rows.map (fun row => row.map rev8) else rows

/-- MIRROR_ALIGN: also reverse the byte order within each row (R111). -/
def alignStep (f : TransformFlags) (rows : List (List Byte)) : List (List Byte) :=
  if f.mirrorAlign then rows.map List.reverse else rows

/-- `xform_rows`: flip, then mirror, then align (R111). -/
def xformRows (f : TransformFlags) (rows : List (List Byte)) : List (List Byte) :=
  alignStep f (mirrorStep f (flipStep f rows))

/-- The rows of the packed sprite at SRC (R50, R115). -/
def packedRows (s : State) : List (List Byte) :=
  (List.range s.spriteH).map (fun r => s.readBytes (s.srcAddr + r * bpr s.spriteW) (bpr s.spriteW))

/-- The checks of XFORM (R115): exactly in place is no overlap. -/
def xformCheck (s : State) : Option ErrorCode :=
  firstFailure
    [(decide (s.spriteW = 0 ∨ s.spriteH = 0), .badGeom),
     (s.rangesBad s.packedSize s.packedSize, .badAddr),
     (decide (s.srcAddr ≠ s.dstAddr) && s.rangesOverlap s.packedSize s.packedSize, .overlap)]

/-- The output bytes of XFORM (R115). -/
def xformBytes (s : State) : List Byte := (xformRows s.opr.flags (packedRows s)).flatten

/-- XFORM (R115): transform a packed sprite. -/
def execXform (s : State) : Host.Outcome State Fault Refusal :=
  command (xformCheck s) s.res (xformBytes s) s

/-- BITREV (R116): reverse the bits of ARG[7:0]; ARG[31:8] is ignored. -/
def execBitrev (s : State) : Host.Outcome State Fault Refusal :=
  command none { s.res with result := (rev8 (field s.opr.arg 0 8)).setWidth 32 } [] s

end Sys2Proof.Machine
end

