-- ==== Sys2Proof/Machine/PackUnpack.lean ====
section
/-! DEFINITION. bit_plane_packer and bit_plane_unpacker: PACK, UNPACK, ENCODE and SHEET (42_pack_unpack.md). -/

namespace Sys2Proof.Machine

/-- `bitval`: the pixel of a column, or the pad bit beyond the row's width (R81, R82). -/
def bitVal (m : Nat → Bool) (w : Nat) (pad : Bool) (c : Nat) : Bool := if c < w then m c else pad

/-- The byte whose bit `7 - k` is `f k`: the leftmost column is the most significant bit (R82). -/
def packByte (f : Nat → Bool) : Byte :=
  BitVec.ofNat 8 (((List.range 8).map (fun k => (f k).toNat <<< (7 - k))).sum)

/-- `pack_row`: the `bpr(w)` bytes of one row (R82). -/
def packRow (m : Nat → Bool) (w : Nat) (pad : Bool) : List Byte :=
  (List.range (bpr w)).map (fun j => packByte (fun k => bitVal m w pad (8 * j + k)))

/-! ## PACK and UNPACK -/

/-- The mask pixel in column `c` of row `r`: a byte that is not zero is on (R49, R83). -/
def maskPixel (s : State) (r c : Nat) : Bool := s.readByte (s.srcAddr + r * s.spriteW + c) != 0

/-- The checks of PACK (R83). -/
def packCheck (s : State) : Option ErrorCode :=
  firstFailure
    [(decide (s.spriteW = 0 ∨ s.spriteH = 0), .badGeom),
     (s.rangesBad s.maskSize s.packedSize, .badAddr),
     (s.rangesOverlap s.maskSize s.packedSize, .overlap)]

/-- The output bytes of PACK (R83). -/
def packBytes (s : State) : List Byte :=
  (List.range s.spriteH).flatMap (fun r => packRow (maskPixel s r) s.spriteW s.inverse)

/-- PACK (R83): pack a mask. -/
def execPack (s : State) : Host.Outcome State Fault Refusal :=
  command (packCheck s) s.res (packBytes s) s

/-- The checks of UNPACK (R84). -/
def unpackCheck (s : State) : Option ErrorCode :=
  firstFailure
    [(decide (s.spriteW = 0 ∨ s.spriteH = 0), .badGeom),
     (s.rangesBad s.packedSize s.maskSize, .badAddr),
     (s.rangesOverlap s.packedSize s.maskSize, .overlap)]

/-- The packed pixel in column `c` of row `r` (R50, R84). -/
def packedPixel (s : State) (r c : Nat) : Bool :=
  bit (s.readByte (s.srcAddr + r * bpr s.spriteW + c / 8)) (7 - c % 8)

/-- A written mask byte: 0x01 for on, 0x00 for off (R49). -/
def maskByte (on : Bool) : Byte := (BitVec.ofBool on).setWidth 8

/-- The output bytes of UNPACK (R84). -/
def unpackBytes (s : State) : List Byte :=
  (List.range s.spriteH).flatMap (fun r =>
    (List.range s.spriteW).map (fun c => maskByte (packedPixel s r c)))

/-- UNPACK (R84): unpack a packed sprite into a mask; FLAGS is not read. -/
def execUnpack (s : State) : Host.Outcome State Fault Refusal :=
  command (unpackCheck s) s.res (unpackBytes s) s

/-! ## ENCODE and SHEET -/

/-- Pixel `(x, y)` of the source grid (R48, R86). -/
def gridPixel (s : State) (x y : Nat) : Pixel :=
  pixelAt s (s.srcAddr + (y * s.gridW + x) * s.channels)

/-- The packed rows of the sprite whose top-left pixel is `(ox, oy)`, before the transform (R86). -/
def spriteRows (s : State) (ox oy : Nat) : List (List Byte) :=
  (List.range s.spriteH).map (fun r =>
    packRow (fun c => sample s (gridPixel s (ox + c) (oy + r))) s.spriteW s.inverse)

/-- `encode_sprite` (R86). -/
def encodeSprite (s : State) (ox oy : Nat) : List Byte :=
  (xformRows s.opr.flags (spriteRows s ox oy)).flatten

/-- The checks of ENCODE (R87). -/
def encodeCheck (s : State) : Option ErrorCode :=
  firstFailure
    [(decide (s.spriteW = 0 ∨ s.spriteH = 0 ∨ s.gridW = 0 ∨ s.gridH = 0
        ∨ s.gridW < s.orgX + s.spriteW ∨ s.gridH < s.orgY + s.spriteH), .badGeom),
     (s.rangesBad s.gridSize s.packedSize, .badAddr),
     (s.rangesOverlap s.gridSize s.packedSize, .overlap)]

/-- ENCODE (R87): encode the sprite at (ORG_X, ORG_Y). -/
def execEncode (s : State) : Host.Outcome State Fault Refusal :=
  command (encodeCheck s) { s.res with count := 1 } (encodeSprite s s.orgX s.orgY) s

/-- How many tiles of size `sz`, offset `o` and gap `gap` fit along an axis of size `g` (R89, NC and NR). -/
def tileCount (g o sz gap : Nat) : Nat := if g < o + sz then 0 else (g - o - sz) / (sz + gap) + 1

/-- NC (R89). -/
def State.tileCols (s : State) : Nat := tileCount s.gridW s.offX s.spriteW s.gapX

/-- NR (R89). -/
def State.tileRows (s : State) : Nat := tileCount s.gridH s.offY s.spriteH s.gapY

/-- `ox(cx)` (R89). -/
def State.tileX (s : State) (cx : Nat) : Nat := s.offX + cx * (s.spriteW + s.gapX)

/-- `oy(cy)` (R89). -/
def State.tileY (s : State) (cy : Nat) : Nat := s.offY + cy * (s.spriteH + s.gapY)

/-- The bytes SHEET writes, `NC * NR * bpr(W) * H` (R90). -/
def State.sheetSize (s : State) : Nat := s.tileCols * s.tileRows * s.packedSize

/-- The checks of SHEET (R90). -/
def sheetCheck (s : State) : Option ErrorCode :=
  firstFailure
    [(decide (s.spriteW = 0 ∨ s.spriteH = 0 ∨ s.gridW = 0 ∨ s.gridH = 0), .badGeom),
     (s.rangesBad s.gridSize s.sheetSize, .badAddr),
     (s.rangesOverlap s.gridSize s.sheetSize, .overlap)]

/-- The output bytes of SHEET: the sprites of the taken tiles, row-major over the tile grid (R90). -/
def sheetBytes (s : State) : List Byte :=
  (List.range s.tileRows).flatMap (fun cy =>
    (List.range s.tileCols).flatMap (fun cx => encodeSprite s (s.tileX cx) (s.tileY cy)))

/-- SHEET (R90): encode every tile of a sprite sheet. -/
def execSheet (s : State) : Host.Outcome State Fault Refusal :=
  command (sheetCheck s) { s.res with count := BitVec.ofNat 32 (s.tileCols * s.tileRows) } (sheetBytes s) s

end Sys2Proof.Machine
end

