-- ==== Sys2Proof/Machine/Dispatch.lean ====
section
/-! DEFINITION. The dispatch of a command to its meaning (30_encoding.md R61), one arm per command. -/

namespace Sys2Proof.Machine

def exec (i : Instr) (s : State) : Host.Outcome State Fault Refusal :=
  match i with
  | .nop => Sys2Proof.Machine.execNop s
  | .matchPixel => Sys2Proof.Machine.execMatch s
  | .pack => Sys2Proof.Machine.execPack s
  | .unpack => Sys2Proof.Machine.execUnpack s
  | .encode => Sys2Proof.Machine.execEncode s
  | .sheet => Sys2Proof.Machine.execSheet s
  | .xform => Sys2Proof.Machine.execXform s
  | .bitrev => Sys2Proof.Machine.execBitrev s
  | .deint => Sys2Proof.Machine.execDeint s
  | .decode => Sys2Proof.Machine.execDecode s
  | .pallook => Sys2Proof.Machine.execPallook s
  | .pixidx => Sys2Proof.Machine.execPixidx s

end Sys2Proof.Machine
end

