-- ==== Sys2Proof/Machine/HostBus.lean ====
section
/-! DEFINITION. The host's accesses to the register space and to BUF (10_state.md R17 to R34, 20_memory.md R42 to
R44, 40_command_engine.md R65 to R68, 70_reset_and_hazards.md R138). -/

namespace Sys2Proof.Machine

/-! ## The register map -/

/-- The named registers below the palette files, by offset (R17). -/
def regTable : List (Nat × Reg) :=
  [(0x000, .id), (0x004, .version), (0x008, .cmd), (0x00C, .status), (0x010, .irqen),
   (0x014, .src), (0x018, .dst), (0x01C, .sprW), (0x020, .sprH), (0x024, .gridW), (0x028, .gridH),
   (0x02C, .offX), (0x030, .offY), (0x034, .gapX), (0x038, .gapY), (0x03C, .orgX), (0x040, .orgY),
   (0x044, .pixfmt), (0x048, .matchRef), (0x04C, .matchTol), (0x050, .alphaThr), (0x054, .flags),
   (0x058, .mode), (0x05C, .lines), (0x060, .arg), (0x064, .result), (0x068, .count),
   (0x06C, .outlen), (0x070, .outW), (0x074, .outH)]

/-- What a register offset names (R17, R33, R34). -/
def regAt (off : Nat) : Reg :=
  if off < 0x100 then (regTable.lookup off).getD .reserved
  else if off < 0x16C then .hwpal (Fin.ofNat Config.hwpalSize ((off - 0x100) / 4))
  else if off < 0x200 then .hwpalHole
  else if off < 0x240 then .inkmap (Fin.ofNat Config.inkCount ((off - 0x200) / 4))
  else .reserved

/-! ## Register reads: fields in their places, every other bit 0 (R17, R18) -/

/-- IRQEN as read (R23). -/
def IrqEnable.word (e : IrqEnable) : Word :=
  placeBit e.doneie 0 ||| placeBit e.errie 1 ||| placeBit e.ovrie 2

/-- FLAGS as read (R28). -/
def TransformFlags.word (f : TransformFlags) : Word :=
  placeBit f.inverse 0 ||| placeBit f.mirror 1 ||| placeBit f.mirrorAlign 2 ||| placeBit f.flipV 3

/-- MODE as read (R29). -/
def ModeReg.word (m : ModeReg) : Word := place m.mode 0 ||| placeBit m.deint 4

/-- An HWPAL entry as read (R33). -/
def HwEntry.word (e : HwEntry) : Word := placeBit e.v 31 ||| rgbWord e.rgb

/-- An INKMAP entry as read (R34). -/
def InkEntry.word (e : InkEntry) : Word := placeBit e.v 31 ||| place e.code 0

/-- What a host read of a register returns (R17 to R34). -/
def regRead (r : Reg) (s : State) : Word :=
  match r with
  | .id => Config.idValue
  | .version => Config.versionValue
  | .cmd => 0
  | .status => s.statusWord
  | .irqen => s.irqen.word
  | .src => s.opr.src
  | .dst => s.opr.dst
  | .sprW => s.opr.sprW.setWidth 32
  | .sprH => s.opr.sprH.setWidth 32
  | .gridW => s.opr.gridW.setWidth 32
  | .gridH => s.opr.gridH.setWidth 32
  | .offX => s.opr.offX.setWidth 32
  | .offY => s.opr.offY.setWidth 32
  | .gapX => s.opr.gapX.setWidth 32
  | .gapY => s.opr.gapY.setWidth 32
  | .orgX => s.opr.orgX.setWidth 32
  | .orgY => s.opr.orgY.setWidth 32
  | .pixfmt => placeBit s.opr.ch4 0
  | .matchRef => rgbWord s.opr.matchRef
  | .matchTol => s.opr.matchTol.setWidth 32
  | .alphaThr => s.opr.alphaThr.setWidth 32
  | .flags => s.opr.flags.word
  | .mode => s.opr.mode.word
  | .lines => s.opr.lines.setWidth 32
  | .arg => s.opr.arg
  | .result => s.res.result
  | .count => s.res.count
  | .outlen => s.res.outlen
  | .outW => s.res.outW
  | .outH => s.res.outH
  | .hwpal c => s.hwpal[c].word
  | .hwpalHole => 0
  | .inkmap i => s.inkmap[i].word
  | .reserved => 0

/-! ## Register writes: the defined fields are stored, reserved bits are ignored (R18) -/

/-- The IRQEN fields of a written word (R23). -/
def irqenOf (v : Word) : IrqEnable :=
  { doneie := v.getLsbD 0, errie := v.getLsbD 1, ovrie := v.getLsbD 2 }

/-- The FLAGS fields of a written word (R28). -/
def flagsOf (v : Word) : TransformFlags :=
  { inverse := v.getLsbD 0, mirror := v.getLsbD 1, mirrorAlign := v.getLsbD 2, flipV := v.getLsbD 3 }

/-- The MODE fields of a written word (R29). -/
def modeOf (v : Word) : ModeReg := { mode := field v 0 2, deint := v.getLsbD 4 }

/-- The colour in bits 23..0 of a written word (R27, R33). -/
def rgbOf (v : Word) : Rgb := { r := field v 16 8, g := field v 8 8, b := field v 0 8 }

/-- The HWPAL fields of a written word (R33). -/
def hwEntryOf (v : Word) : HwEntry := { v := v.getLsbD 31, rgb := rgbOf v }

/-- The INKMAP fields of a written word (R34). -/
def inkEntryOf (v : Word) : InkEntry := { v := v.getLsbD 31, code := field v 0 5 }

/-- A host write to an RW operand register while BUSY = 0 (R24 to R31). Registers of other kinds keep the state. -/
def operandWrite (r : Reg) (v : Word) (o : OperandRegs) : OperandRegs :=
  match r with
  | .src => { o with src := v }
  | .dst => { o with dst := v }
  | .sprW => { o with sprW := field v 0 16 }
  | .sprH => { o with sprH := field v 0 16 }
  | .gridW => { o with gridW := field v 0 16 }
  | .gridH => { o with gridH := field v 0 16 }
  | .offX => { o with offX := field v 0 16 }
  | .offY => { o with offY := field v 0 16 }
  | .gapX => { o with gapX := field v 0 16 }
  | .gapY => { o with gapY := field v 0 16 }
  | .orgX => { o with orgX := field v 0 16 }
  | .orgY => { o with orgY := field v 0 16 }
  | .pixfmt => { o with ch4 := v.getLsbD 0 }
  | .matchRef => { o with matchRef := rgbOf v }
  | .matchTol => { o with matchTol := field v 0 8 }
  | .alphaThr => { o with alphaThr := field v 0 8 }
  | .flags => { o with flags := flagsOf v }
  | .mode => { o with mode := modeOf v }
  | .lines => { o with lines := field v 0 16 }
  | .arg => { o with arg := v }
  | _ => o

/-- A host write to INKMAP[i] while BUSY = 0: discarded with INK_RANGE when its CODE is above 26 (R34, R120). -/
def inkWrite (i : Fin Config.inkCount) (v : Word) (s : State) : State :=
  if 26 < (inkEntryOf v).code.toNat then registerError .inkRange s
  else { s with inkmap := s.inkmap.set i (inkEntryOf v) }

/-- Read-only registers and reserved offsets ignore writes; CMD, STATUS and IRQEN take them at any time; every
other register, and the HWPAL window, only while BUSY = 0 (R17, R68). -/
def writeKind : Reg → WriteKind
  | .id | .version | .result | .count | .outlen | .outW | .outH | .reserved => .ignored
  | .cmd | .status | .irqen => .always
  | _ => .whenIdle

/-- The effect of a host write that is not discarded. -/
def regStore (r : Reg) (v : Word) (s : State) : State :=
  match r with
  | .cmd => issue v s
  | .status => statusWrite v s
  | .irqen => { s with irqen := irqenOf v }
  | .hwpal c => { s with hwpal := s.hwpal.set c (hwEntryOf v) }
  | .hwpalHole => registerError .palRange s
  | .inkmap i => inkWrite i v s
  | .id | .version | .result | .count | .outlen | .outW | .outH | .reserved => s
  | _ => { s with opr := operandWrite r v s.opr }

/-- A host write to a register (R17, R18, R68): discarded with OVR where the register takes writes only while
BUSY = 0 and a command is pending. -/
def regWrite (r : Reg) (v : Word) (s : State) : State :=
  match writeKind r with
  | .ignored => s
  | .always => regStore r v s
  | .whenIdle => if s.busy then setOverrun s else regStore r v s

/-! ## Host accesses -/

/-- A legal access to the register space: 32 bits, aligned, inside it (R42). -/
def regAccessOk (size off : Nat) : Bool := decide (size = 4 ∧ off % 4 = 0 ∧ off < Config.regSpace)

/-- A legal access to BUF: 8, 16 or 32 bits, naturally aligned, all of it below BUF_SIZE (R42). -/
def bufAccessOk (s : State) (size off : Nat) : Bool :=
  decide ((size = 1 ∨ size = 2 ∨ size = 4) ∧ off % size = 0 ∧ off + size ≤ s.bufSize)

/-- Little-endian bytes as one word: the byte at the lowest offset is the least significant (R43). -/
def leWord : List Byte → Word
  | [] => 0
  | b :: bs => b.setWidth 32 ||| (leWord bs <<< 8)

/-- The low `size` bytes of a word, the least significant first (R43). -/
def leBytes (v : Word) (size : Nat) : List Byte := (List.range size).map (fun k => field v (8 * k) 8)

/-- A host access to BUF: a fault while BUSY, whatever its offset (R138), a bus error where R42 forbids it. -/
def bufFault (s : State) (size off : Nat) : Option Fault :=
  if s.busy then some .hostBufWhileBusy
  else if bufAccessOk s size off then none
  else some .hostBusError

/-- The fault of a host access, if it is one (R42, R138). -/
def accessFault (a : HostAccess) (s : State) : Option Fault :=
  match a with
  | .read .reg size off | .write .reg size off _ =>
    if regAccessOk size off then none else some .hostBusError
  | .read .buf size off | .write .buf size off _ => bufFault s size off

/-- The datum of a legal host read (R43, R44). -/
def readDatum (sp : Space) (size off : Nat) (s : State) : Word :=
  match sp with
  | .reg => regRead (regAt off) s
  | .buf => leWord (s.readBytes off size)

/-- The effect of a legal host access: a read changes only the datum the host holds, a write to BUF only the
written bytes (R44). -/
def accessEffect (a : HostAccess) (s : State) : State :=
  match a with
  | .read sp size off => { s with readData := readDatum sp size off s }
  | .write .reg _ off v => regWrite (regAt off) v s
  | .write .buf size off v => { s with buf := s.buf.writeBlock off (leBytes v size) }

/-- One host access (R42, R44, R138). -/
def hostAccess (a : HostAccess) (s : State) : Host.Outcome State Fault Refusal :=
  match accessFault a s with
  | some f => .fault f
  | none => .next (accessEffect a s)

end Sys2Proof.Machine
end

