-- ==== Sys2Proof/Machine/Engine.lean ====
section
/-! DEFINITION. The engine's step and the reset input (40_command_engine.md R64, R70, 70_reset_and_hazards.md
R133, R134), and whose turn it is. -/

namespace Sys2Proof.Machine

/-- The engine's turn (R64, R70): the completion step of the pending command. A word that is no command ends in
BAD_OP, the first class of R69 (R62). With nothing pending the block is idle and nothing changes (R132). -/
def engineStep (s : State) : Host.Outcome State Fault Refusal :=
  match s.pending with
  | none => .next s
  | some v =>
    match decode v with
    | .ok i => exec i s
    | .error _ => .next (errorEntry .badOp s)

/-- How many bytes from DST on the write range of a command spans, as its rule defines it (R134). -/
def writeSize (i : Instr) (s : State) : Nat :=
  match i with
  | .nop => 0
  | .matchPixel => 0
  | .pack => s.packedSize
  | .unpack => s.maskSize
  | .encode => s.packedSize
  | .sheet => s.sheetSize
  | .xform => s.packedSize
  | .bitrev => 0
  | .deint => Config.screenBytes
  | .decode => s.decodeSize
  | .pallook => 0
  | .pixidx => 0

/-- How many bytes of BUF from DST on a reset leaves unspecified: those of the pending command's write range that
lie in BUF (R134); none where nothing, or no command, is pending. -/
def abandonedSize (s : State) : Nat :=
  match s.pending with
  | none => 0
  | some v =>
    match decode v with
    | .ok i => min (writeSize i s) (s.bufSize - s.dstAddr)
    | .error _ => 0

/-- The free draws that stand in those bytes after the reset (R134; log entry 4). -/
def abandonedBytes (s : State) : List Byte :=
  (List.range (abandonedSize s)).map (fun k => Config.abandonedByte s.abandons (s.dstAddr + k))

/-- Every register at its reset value and PENDING invalid (R38, R133); BUF, the parameter, the schedule and the
host's datum are no registers of the block. -/
def resetRegisters (s : State) : State :=
  { s with
    status := State.reset.status
    irqen := State.reset.irqen
    opr := State.reset.opr
    res := State.reset.res
    hwpal := State.reset.hwpal
    inkmap := State.reset.inkmap
    pending := none }

/-- A reset while BUF stays powered (R133, R134, R53): BUF is kept but for the write range of a pending command. -/
def warmReset (s : State) : State :=
  { resetRegisters s with
    buf := s.buf.writeBlock s.dstAddr (abandonedBytes s)
    abandons := s.abandons + 1 }

/-- A power-on: a reset after which no byte of BUF has been written (R53). -/
def powerOn (s : State) : State :=
  { resetRegisters s with buf := { cells := [] }, powerOns := s.powerOns + 1 }

/-- One turn (R54, R64): each is one atomic step. -/
def takeTurn (t : Turn) (s : State) : Host.Outcome State Fault Refusal :=
  match t with
  | .engine => engineStep s
  | .host a => hostAccess a s
  | .reset => .next (warmReset s)
  | .powerOn => .next (powerOn s)

/-- The next turn of the schedule; when the schedule is spent the engine moves, so that no schedule leaves a
command pending for ever (R141; log entry 2). -/
def runTurn (s : State) : Host.Outcome State Fault Refusal :=
  match s.turns with
  | [] => engineStep s
  | t :: rest => takeTurn t { s with turns := rest }

/-- The state in which a command word has just been accepted and the engine moves next (R65). -/
def acceptedNext (v : Word) (s : State) : State :=
  accept v { s with turns := .engine :: s.turns }

end Sys2Proof.Machine
end

