-- ==== Sys2Proof/Machine/Step.lean ====
section
/-! DEFINITION. One step of the machine, and how an instruction is placed where the next step runs it. -/

namespace Sys2Proof.Machine

/-- One step: the turn that is next (40_command_engine.md R64). -/
def step (s : State) : Host.Outcome State Fault Refusal := runTurn s

/-- The state with a command word placed where the engine reads its next command: PENDING holds it, as after an
accepted CMD write (R65, R36), and the next turn is the engine's. -/
def State.withFetchWord (s : State) (nbits w : Nat) : State := acceptedNext (tableWord nbits w) s

end Sys2Proof.Machine
end

