-- ==== Sys2Proof/Safety.lean ====
section
/-! DEFINITION. What counts as a legal state and a safe run, in the terms claims use: the invariants of 10_state.md
R37 and of BUF, and a host that keeps the access and hazard rules (20_memory.md R42, 70_reset_and_hazards.md R138). -/

namespace Sys2Proof.Machine

/-- BUSY = 1 implies ERR = 0 (R37, 1). -/
def State.busyMeansNoError (s : State) : Bool := !s.busy || !s.status.err

/-- ERR = 0 implies ECODE = 0, and ERR = 1 comes with a code (R37, 2; R118). -/
def State.codeMatchesError (s : State) : Bool := s.status.err == decide (s.status.ecode ≠ .none)

/-- BUSY = 1 implies DONE = 0 (R37, 3). -/
def State.busyMeansNotDone (s : State) : Bool := !s.busy || !s.status.done

/-- Every INKMAP[i].CODE is at most 26 (R37, 4). -/
def State.inkCodesLegal (s : State) : Bool := s.inkmap.toList.all (fun e => decide (e.code.toNat ≤ 26))

/-- The stored bytes of BUF are in canonical form and lie in BUF (R40). -/
def State.bufLegal (s : State) : Bool := s.buf.wf && s.buf.below s.bufSize

/-- The invariants of R37 together with the form of BUF. -/
abbrev State.Inv (s : State) : Prop :=
  s.busyMeansNoError = true ∧ s.codeMatchesError = true ∧ s.busyMeansNotDone = true
    ∧ s.inkCodesLegal = true ∧ s.bufLegal = true

/-- The turn to come keeps the access rules of R42 and the hazard rule of R138: it is no faulting host access. -/
def State.turnLegal (s : State) : Bool :=
  match s.turns with
  | .host a :: _ => (accessFault a s).isNone
  | _ => true

end Sys2Proof.Machine
end

