-- ==== Sys2Proof/Certificates/Slice0/Obligations.lean ====
section
/-! DEFINITION. The statements about the model, each from a numbered rule of spec/. The few words they share stand
first, written from the rules and not from the meanings. -/

namespace Sys2Proof.Claims

open Sys2Proof.Machine

/-- `[a, a+n)` is in BUF (20_memory.md R46). -/
def inside (s : State) (a n : Nat) : Prop := n = 0 ∨ a + n ≤ s.bufLast.toNat + 1

/-- `[a, a+n)` and `[b, b+m)` overlap (20_memory.md R47). -/
def meet (a n b m : Nat) : Prop := 0 < n ∧ 0 < m ∧ a < b + m ∧ b < a + n

/-- A command that reads `n` bytes at SRC and writes `m` bytes at DST passes its address checks (R69, classes 5 and 6). -/
def addressable (s : State) (n m : Nat) : Prop :=
  inside s s.opr.src.toNat n ∧ inside s s.opr.dst.toNat m ∧ ¬ meet s.opr.src.toNat n s.opr.dst.toNat m

/-- `t` is `s` after a command completed with these result registers: only BUF, the result registers, DONE and
PENDING can differ (40_command_engine.md R70). -/
def finished (s t : State) (res : ResultRegs) : Prop :=
  t = { s with buf := t.buf, res := res, status := { s.status with done := true }, pending := none }

/-- Every byte of BUF outside `[a, a+n)` reads as before. -/
def keepsOutside (s t : State) (a n : Nat) : Prop :=
  ∀ x, ¬ (a ≤ x ∧ x < a + n) → t.readByte x = s.readByte x

/-- `s` after a command failed with code `e` (60_exceptions.md R119). -/
def failed (e : ErrorCode) (s : State) : State :=
  { s with
    status := { s.status with done := true, err := true, ecode := if s.status.err then s.status.ecode else e }
    pending := none }

/-- The result registers after a command that wrote `n` bytes and no other result (10_state.md R32). -/
def withLength (s : State) (n : Nat) : ResultRegs := { s.res with outlen := BitVec.ofNat 32 n }

/-- A channel is within the tolerance: the exact absolute difference, as integers (41_color_match.md R75). -/
def near (s : State) (a b : Byte) : Prop := ((a.toNat : Int) - (b.toNat : Int)).natAbs ≤ s.opr.matchTol.toNat

/-- The pixel whose bytes start at offset `a` is on (41_color_match.md R75 to R78): its match with the reference
colour agrees with INVERSE, and it is not transparent. -/
def pixelOn (s : State) (a : Nat) : Prop :=
  ((near s (s.readByte a) s.opr.matchRef.r ∧ near s (s.readByte (a + 1)) s.opr.matchRef.g
      ∧ near s (s.readByte (a + 2)) s.opr.matchRef.b) ↔ s.opr.flags.inverse = true)
    ∧ ¬ (s.opr.ch4 = true ∧ (s.readByte (a + 3)).toNat < s.opr.alphaThr.toNat)

/-- CH (20_memory.md R48). -/
def channels (s : State) : Nat := if s.opr.ch4 then 4 else 3

/-- The offset of grid pixel `(x, y)` (20_memory.md R48). -/
def gridOffset (s : State) (x y : Nat) : Nat :=
  s.opr.src.toNat + (y * s.opr.gridW.toNat + x) * channels s

/-- The row a transform takes output row `r` from, of `h` rows (45_transform.md R111). -/
def fromRow (f : TransformFlags) (h r : Nat) : Nat := if f.flipV then h - 1 - r else r

/-- The byte of its row a transform takes output byte `j` from, of `n` bytes (45_transform.md R111). -/
def fromByte (f : TransformFlags) (n j : Nat) : Nat := if f.mirrorAlign then n - 1 - j else j

/-- The pixel of its byte a transform takes output pixel `k` from, pixel 0 leftmost (45_transform.md R111). -/
def fromPixel (f : TransformFlags) (k : Nat) : Nat := if f.mirror ∨ f.mirrorAlign then 7 - k else k

/-- Byte `j` of row `r` at offset `a` holds, at pixel `k`, what the sprite at `(ox, oy)` has in the column it comes
from: the sampled pixel, or the pad bit beyond the sprite's width (42_pack_unpack.md R81, R82, R86). -/
def spriteBit (s t : State) (a ox oy r j k : Nat) : Prop :=
  let w := s.opr.sprW.toNat
  let n := (w + 7) / 8
  let c := 8 * fromByte s.opr.flags n j + fromPixel s.opr.flags k
  let on := (t.readByte (a + (r * n + j))).getLsbD (7 - k)
  (c < w → (on = true ↔ pixelOn s (gridOffset s (ox + c) (oy + fromRow s.opr.flags s.opr.sprH.toNat r))))
    ∧ (w ≤ c → on = s.opr.flags.inverse)

/-- Where DEINT takes output byte `o` from (44_deinterleave.md R108, the inverse map). -/
def deintFrom (o : Nat) : Nat :=
  if o < 16000 then (o / 80 % 8) * 2048 + (o / 80 / 8) * 80 + o % 80
  else 2048 * ((o - 16000) / 48) + 2000 + (o - 16000) % 48

/-- Where DEINT puts input byte `p` (44_deinterleave.md R108, the forward map). -/
def deintTo (p : Nat) : Nat :=
  if p % 2048 < 2000 then 80 * ((p % 2048 / 80) * 8 + p / 2048) + p % 2048 % 80
  else 16000 + 48 * (p / 2048) + (p % 2048 - 2000)

/-- Pixels in one byte (43_decode_palette.md R95). -/
def perByte (m : Nat) : Nat := if m = 0 then 2 else if m = 1 then 4 else 8

/-- The byte bit behind index bit `q` of pixel slot 0 (43_decode_palette.md R95); slot `i` takes the bit `i` lower. -/
def indexBit (m q : Nat) : Option Nat :=
  match m, q with
  | 2, 0 => some 7
  | 1, 0 => some 7
  | 1, 1 => some 3
  | 0, 0 => some 7
  | 0, 1 => some 3
  | 0, 2 => some 5
  | 0, 3 => some 1
  | _, _ => none

/-- OUT_W and OUT_H of `n` scanlines (43_decode_palette.md R102). -/
def gridOf (m n : Nat) : Nat × Nat := if m = 2 then (640, 2 * n) else (320, n)

/-- The source address of a scanline (43_decode_palette.md R101). -/
def lineFrom (s : State) (l : Nat) : Nat :=
  s.opr.src.toNat + (if s.opr.mode.deint then (l % 8) * 2048 + (l / 8) * 80 else 80 * l)

/-- The bytes DECODE's read range spans (43_decode_palette.md R103). -/
def screenSpan (s : State) : Nat := if s.opr.mode.deint then 16384 else 80 * s.opr.lines.toNat

/-- The bytes DECODE writes (43_decode_palette.md R102). -/
def gridSpan (s : State) : Nat :=
  (gridOf s.opr.mode.mode.toNat s.opr.lines.toNat).1 * (gridOf s.opr.mode.mode.toNat s.opr.lines.toNat).2 * 3

/-- DECODE passes its checks (43_decode_palette.md R103). -/
def decodeReady (s : State) : Prop :=
  s.opr.mode.mode ≠ 3 ∧ 0 < s.opr.lines.toNat ∧ (s.opr.mode.deint = true → s.opr.lines.toNat ≤ 200)
    ∧ addressable s (screenSpan s) (gridSpan s)

/-- The bytes of one packed sprite (20_memory.md R50). -/
def spriteSpan (s : State) : Nat := (s.opr.sprW.toNat + 7) / 8 * s.opr.sprH.toNat

/-- The bytes of one mask (20_memory.md R49). -/
def maskSpan (s : State) : Nat := s.opr.sprW.toNat * s.opr.sprH.toNat

/-- The bytes of the source grid (20_memory.md R48). -/
def gridBytes (s : State) : Nat := s.opr.gridW.toNat * s.opr.gridH.toNat * channels s

/-- The sprite size is not zero. -/
def sized (s : State) : Prop := 0 < s.opr.sprW.toNat ∧ 0 < s.opr.sprH.toNat

/-- Neither is the grid's. -/
def gridded (s : State) : Prop := 0 < s.opr.gridW.toNat ∧ 0 < s.opr.gridH.toNat

/-- The tile at (ORG_X, ORG_Y) lies in the grid (42_pack_unpack.md R87). -/
def tileInGrid (s : State) : Prop :=
  s.opr.orgX.toNat + s.opr.sprW.toNat ≤ s.opr.gridW.toNat ∧ s.opr.orgY.toNat + s.opr.sprH.toNat ≤ s.opr.gridH.toNat

/-- ENCODE passes its checks (42_pack_unpack.md R87). -/
def encodeReady (s : State) : Prop :=
  sized s ∧ gridded s ∧ tileInGrid s ∧ addressable s (gridBytes s) (spriteSpan s)

/-- SHEET passes its checks with `nc` columns and `nr` rows of tiles (42_pack_unpack.md R90). -/
def sheetReady (s : State) (nc nr : Nat) : Prop :=
  sized s ∧ gridded s ∧ addressable s (gridBytes s) (nc * nr * spriteSpan s)

/-- `nc` tiles fit across the grid: a tile is taken when its box lies inside (42_pack_unpack.md R89). -/
def tilesAcross (s : State) (nc : Nat) : Prop :=
  ∀ cx, cx < nc ↔ s.opr.offX.toNat + cx * (s.opr.sprW.toNat + s.opr.gapX.toNat) + s.opr.sprW.toNat ≤ s.opr.gridW.toNat

/-- `nr` tiles fit down the grid (42_pack_unpack.md R89). -/
def tilesDown (s : State) (nr : Nat) : Prop :=
  ∀ cy, cy < nr ↔ s.opr.offY.toNat + cy * (s.opr.sprH.toNat + s.opr.gapY.toNat) + s.opr.sprH.toNat ≤ s.opr.gridH.toNat

/-- `ox(cx)` and `oy(cy)` (42_pack_unpack.md R89). -/
def tileOrigin (s : State) (cx cy : Nat) : Nat × Nat :=
  (s.opr.offX.toNat + cx * (s.opr.sprW.toNat + s.opr.gapX.toNat),
   s.opr.offY.toNat + cy * (s.opr.sprH.toNat + s.opr.gapY.toNat))

/-- XFORM passes its checks: exactly in place is allowed (45_transform.md R115). -/
def xformReady (s : State) : Prop :=
  sized s ∧ inside s s.opr.src.toNat (spriteSpan s) ∧ inside s s.opr.dst.toNat (spriteSpan s)
    ∧ (s.opr.src = s.opr.dst ∨ ¬ meet s.opr.src.toNat (spriteSpan s) s.opr.dst.toNat (spriteSpan s))

/-- The offsets of the RW registers other than STATUS and IRQEN, and of the HWPAL window (10_state.md R17). -/
def takesWritesWhenIdle (off : Nat) : Prop := (0x014 ≤ off ∧ off ≤ 0x060) ∨ (0x100 ≤ off ∧ off ≤ 0x23C)

/-- The offsets of the RO registers and the reserved offsets (10_state.md R17). -/
def ignoresWrites (off : Nat) : Prop := off ≤ 0x004 ∨ (0x064 ≤ off ∧ off ≤ 0x0FC) ∨ 0x240 ≤ off

/-- The defined bits of the RW registers that a write stores (10_state.md R17). -/
def definedBits (off : Nat) : Word :=
  if off = 0x010 then 0x7
  else if off = 0x014 ∨ off = 0x018 ∨ off = 0x060 then 0xFFFFFFFF
  else if (0x01C ≤ off ∧ off ≤ 0x040) ∨ off = 0x05C then 0xFFFF
  else if off = 0x044 then 0x1
  else if off = 0x048 then 0xFFFFFF
  else if off = 0x04C ∨ off = 0x050 then 0xFF
  else if off = 0x054 then 0xF
  else if off = 0x058 then 0x13
  else if 0x100 ≤ off ∧ off ≤ 0x168 then 0x80FFFFFF
  else 0x8000001F

/-- What each register offset reads right after reset (10_state.md R17, R38). -/
def resetValue (off : Nat) : Word :=
  if off = 0x000 then 0x42505531
  else if off = 0x004 then 0x00010000
  else if off = 0x04C then 0x8
  else if off = 0x050 then 0xFE
  else if off = 0x05C then 200
  else if 0x200 ≤ off ∧ off ≤ 0x23C then 0x80000000 + BitVec.ofNat 32 ((off - 0x200) / 4)
  else 0

/-- The next turn is a host write of `v` to a register offset, and `rest` comes after it. -/
def writesReg (s : State) (off : Nat) (v : Word) (rest : List Turn) : Prop :=
  s.turns = .host (.write .reg 4 off v) :: rest

/-- A legal register offset (20_memory.md R42). -/
def regOffsetOk (off : Nat) : Prop := off % 4 = 0 ∧ off < 4096

/-- `s` with `f` in FLAGS: all four transform flags replaced, INVERSE among them. -/
def withFlags (s : State) (f : TransformFlags) : State := { s with opr := { s.opr with flags := f } }

/-- The number STATUS shows for an error code (60_exceptions.md R118). -/
def codeNumber : ErrorCode → Nat
  | .none => 0
  | .badOp => 1
  | .badMode => 2
  | .badArg => 3
  | .badGeom => 4
  | .badAddr => 5
  | .overlap => 6
  | .inkRange => 7
  | .palRange => 8

/-- A host access of `size` bytes at an offset of a space keeps the access rules and the hazard rule (20_memory.md
R42, 70_reset_and_hazards.md R138). That REG ends at 4096 is read from 10_state.md R17 (log entry 7, DEDUCED). -/
def accessAllowed (s : State) (sp : Space) (size off : Nat) : Prop :=
  match sp with
  | .reg => size = 4 ∧ off % 4 = 0 ∧ off < 4096
  | .buf => s.busy = false ∧ (size = 1 ∨ size = 2 ∨ size = 4) ∧ off % size = 0 ∧ off + size ≤ s.bufLast.toNat + 1

/-- The turn to come is no host access that the rules forbid. -/
def turnAllowed (s : State) : Prop :=
  match s.turns with
  | .host (.read sp size off) :: _ => accessAllowed s sp size off
  | .host (.write sp size off _) :: _ => accessAllowed s sp size off
  | _ => True

/-- The write range of a command spans `n` bytes from DST on, as its rule defines it from the registers, whether or
not the command passes its checks (42_pack_unpack.md R83, R84, R87, R90, 43_decode_palette.md R102, 44_deinterleave.md
R107, 45_transform.md R115). That a DECODE in mode 3, whose output size no rule gives, has no range is the model's
choice (log entries 4 and 16, DEDUCED). -/
def writesSpan (s : State) (i : Instr) (n : Nat) : Prop :=
  match i with
  | .nop | .matchPixel | .bitrev | .pallook | .pixidx => n = 0
  | .pack | .encode | .xform => n = spriteSpan s
  | .unpack => n = maskSpan s
  | .sheet =>
    (spriteSpan s = 0 ∧ n = 0) ∨ ∃ nc nr, tilesAcross s nc ∧ tilesDown s nr ∧ n = nc * nr * spriteSpan s
  | .deint => n = 16384
  | .decode => n = if s.opr.mode.mode = 3 then 0 else gridSpan s

/-- The colour of pixel slot `i` of byte `b` in mode `m`, from INKMAP and HWPAL: the entries of the index, whose bit `q`
is the byte bit of the table of 43_decode_palette.md R95, give `c` where both are defined (R97), and black where one is
not (R98). -/
def pixelColour (s : State) (m : Nat) (b : Byte) (i : Nat) (c : Rgb) : Prop :=
  ∃ (n : Nat) (e : InkEntry) (h : HwEntry), s.inkmap[n]? = some e ∧ s.hwpal[e.code.toNat]? = some h
    ∧ (∀ q < 4, n.testBit q = match indexBit m q with
        | some p => b.getLsbD (p - i)
        | none => false)
    ∧ c = if e.v = true ∧ h.v = true then h.rgb else { r := 0, g := 0, b := 0 }

/-- The turn to come is a reset. -/
def resetNext (s : State) : Prop := s.turns.head? = some .reset ∨ s.turns.head? = some .powerOn

/-- The turn to come is the engine's (40_command_engine.md R64). That the engine moves when the schedule is empty is
the model's choice (log entry 2). -/
def engineNext (s : State) : Prop := s.turns = [] ∨ s.turns.head? = some .engine

end Sys2Proof.Claims

open Sys2Proof Sys2Proof.Machine Sys2Proof.Claims

/-! ## Encoding -/

/-- A word decodes to a command exactly when it is that command's word (30_encoding.md R59, R61). -/
def Obligations.DecodeAgreesWithEncode : Prop := ∀ (w : Word) (i : Instr), decode w = .ok i ↔ w = encode i

/-- Words written out from the table of 30_encoding.md R61: one of each unit. -/
def Obligations.TableWordsDecode : Prop :=
  decode 0x00000000 = .ok .nop ∧ decode 0x00000001 = .ok .matchPixel ∧ decode 0x00000002 = .ok .pack
    ∧ decode 0x00000003 = .ok .unpack ∧ decode 0x00000006 = .ok .xform ∧ decode 0x00000008 = .ok .deint
    ∧ decode 0x0000000A = .ok .pallook ∧ decode 0x0000000B = .ok .pixidx

/-- An accepted illegal word, one with OP in 0xC..0xF or RSV not zero, fails with BAD_OP and writes nothing but
STATUS; every other word is a command (30_encoding.md R62). -/
def Obligations.IllegalWordFailsBadOp : Prop :=
  ∀ (s : State) (w : Word),
    ((∃ i, decode w = .ok i) ↔ (w.toNat % 16 < 12 ∧ w.toNat / 16 = 0))
    ∧ ∀ rest, s.pending = some w → s.turns = .engine :: rest → (12 ≤ w.toNat % 16 ∨ w.toNat / 16 ≠ 0) →
        step s = .next (failed .badOp { s with turns := rest })

/-! ## Step -/

/-- On the engine's turn, a step is the meaning of the pending command (40_command_engine.md R70). The turn is spent;
that the engine also moves when no turn is scheduled is the model's choice (log entry 2). -/
def Obligations.StepRunsPendingCommand : Prop :=
  ∀ (s : State) (w : Word) (i : Instr), s.pending = some w → decode w = .ok i → i.wellFormed = true →
    engineNext s → step s = exec i { s with turns := s.turns.tail }

/-- With BUSY = 0 the engine's turn changes nothing (60_exceptions.md R132) but the schedule, which is the model's
(log entry 2). -/
def Obligations.IdleEngineChangesNothing : Prop :=
  ∀ s : State, s.pending = none → engineNext s → step s = .next { s with turns := s.turns.tail }

/-- A CMD write is accepted, discarded or rejected (40_command_engine.md R65, R66, R67). -/
def Obligations.CmdWriteHasThreeOutcomes : Prop :=
  ∀ (s : State) (v : Word) (rest : List Turn), writesReg s 0x008 v rest →
    (s.busy = true → step s = .next { s with turns := rest, status := { s.status with ovr := true } })
    ∧ (s.busy = false → s.status.err = true →
        step s = .next { s with turns := rest, status := { s.status with ovr := true, done := true } })
    ∧ (s.busy = false → s.status.err = false →
        step s = .next { s with turns := rest, pending := some v, status := { s.status with done := false } })

/-- While BUSY = 1 a write to an RW register or to the HWPAL window is discarded with OVR; a write to a read-only
register or a reserved offset is ignored at all times; STATUS and IRQEN take writes at all times
(40_command_engine.md R68). -/
def Obligations.RegisterWritesWhileBusy : Prop :=
  ∀ (s : State) (off : Nat) (v : Word) (rest : List Turn), writesReg s off v rest → regOffsetOk off →
    (s.busy = true → takesWritesWhenIdle off →
      step s = .next { s with turns := rest, status := { s.status with ovr := true } })
    ∧ (ignoresWrites off → step s = .next { s with turns := rest })
    ∧ (off = 0x010 → step s = .next { s with turns := rest, irqen :=
        { doneie := v.getLsbD 0, errie := v.getLsbD 1, ovrie := v.getLsbD 2 } })
    ∧ (off = 0x00C → step s = .next { s with turns := rest, status :=
        { done := s.status.done && !v.getLsbD 1, err := s.status.err && !v.getLsbD 2,
          ovr := s.status.ovr && !v.getLsbD 3, ecode := if v.getLsbD 2 then .none else s.status.ecode } })

/-- A value written to an RW register reads back with its defined bits, reserved bits 0, and no other register
changes (10_state.md R17, R18). INKMAP refuses a CODE above 26 (R34), and CMD and STATUS have statements of their own. -/
def Obligations.RegisterWriteReadsBack : Prop :=
  ∀ (s : State) (off : Nat) (v : Word) (rest : List Turn), s.busy = false → off % 4 = 0 →
    ((0x010 ≤ off ∧ off ≤ 0x060) ∨ (0x100 ≤ off ∧ off ≤ 0x168) ∨ (0x200 ≤ off ∧ off ≤ 0x23C)) →
    (0x200 ≤ off → v.toNat % 32 ≤ 26) →
    s.turns = .host (.write .reg 4 off v) :: .host (.read .reg 4 off) :: rest →
    ∃ t u, step s = .next t ∧ step t = .next u ∧ u.readData = v &&& definedBits off ∧ u.turns = rest
      ∧ u.pending = s.pending ∧ u.buf = s.buf
      ∧ ∀ other, regOffsetOk other → other ≠ off → regRead (regAt other) u = regRead (regAt other) s

/-- A legal host read changes no state of the block: only the schedule and the datum the host holds (20_memory.md
R44). Reading again, with no write between, returns the same datum. -/
def Obligations.HostReadChangesNothing : Prop :=
  ∀ (s : State) (sp : Space) (size off : Nat) (rest : List Turn),
    s.turns = .host (.read sp size off) :: .host (.read sp size off) :: rest → accessAllowed s sp size off →
    ∃ d, step s = .next { s with turns := .host (.read sp size off) :: rest, readData := d }
      ∧ step { s with turns := .host (.read sp size off) :: rest, readData := d }
          = .next { s with turns := rest, readData := d }

/-- A legal host write to BUF changes the written bytes, little-endian, and nothing else (20_memory.md R43, R44). That
a write of 1 or 2 bytes stores the low bytes of its datum is the model's choice (log entry 6, DESIGN CHOICE). -/
def Obligations.BufWriteIsLittleEndian : Prop :=
  ∀ (s : State) (size off : Nat) (v : Word) (rest : List Turn), s.busy = false →
    (size = 1 ∨ size = 2 ∨ size = 4) → off % size = 0 → off + size ≤ s.bufLast.toNat + 1 →
    s.turns = .host (.write .buf size off v) :: rest →
    ∃ t, step s = .next t ∧ t = { s with buf := t.buf, turns := rest } ∧ keepsOutside s t off size
      ∧ ∀ k < size, (t.readByte (off + k)).toNat = v.toNat / 256 ^ k % 256

/-- A legal host read of BUF returns its bytes, the one at the lowest offset least significant (20_memory.md R43). That
the bits of the datum above a narrow read are 0, the clause `d.toNat < 256 ^ size`, is the model's choice (log entry 6,
DESIGN CHOICE). -/
def Obligations.BufReadIsLittleEndian : Prop :=
  ∀ (s : State) (size off : Nat) (rest : List Turn), s.busy = false →
    (size = 1 ∨ size = 2 ∨ size = 4) → off % size = 0 → off + size ≤ s.bufLast.toNat + 1 →
    s.turns = .host (.read .buf size off) :: rest →
    ∃ d, step s = .next { s with turns := rest, readData := d } ∧ d.toNat < 256 ^ size
      ∧ ∀ k < size, d.toNat / 256 ^ k % 256 = (s.readByte (off + k)).toNat

/-- Any host access but an aligned 32-bit one to REG, or an aligned 8-, 16- or 32-bit one inside BUF, is a bus
error; those are none (20_memory.md R42). That REG ends at 4096 is read from 10_state.md R17 (log entry 7, DEDUCED),
and that a bus error stops the run is how the model takes R42's host fault (log entry 9, DEDUCED). -/
def Obligations.OnlyIllegalAccessesAreBusErrors : Prop :=
  ∀ (s : State) (sp : Space) (size off : Nat) (v : Word) (rest : List Turn) (a : HostAccess),
    (a = .read sp size off ∨ a = .write sp size off v) → s.turns = .host a :: rest →
    (sp = .reg → ((size = 4 ∧ off % 4 = 0 ∧ off < 4096) ↔ ∃ t, step s = .next t)
      ∧ (¬ (size = 4 ∧ off % 4 = 0 ∧ off < 4096) → step s = .fault .hostBusError))
    ∧ (sp = .buf → s.busy = false →
      (((size = 1 ∨ size = 2 ∨ size = 4) ∧ off % size = 0 ∧ off + size ≤ s.bufLast.toNat + 1)
          ↔ ∃ t, step s = .next t)
      ∧ (¬ ((size = 1 ∨ size = 2 ∨ size = 4) ∧ off % size = 0 ∧ off + size ≤ s.bufLast.toNat + 1) →
          step s = .fault .hostBusError))

/-- A host access to BUF while BUSY = 1 is a host fault, a read or a write, whatever its offset
(70_reset_and_hazards.md R138). That this fault, and not the bus error, is reported where the access also breaks
20_memory.md R42 is the model's choice (log entry 8, DEDUCED), and so is that it stops the run (log entry 9, DEDUCED). -/
def Obligations.BufAccessWhileBusyFaults : Prop :=
  ∀ (s : State) (a : HostAccess) (rest : List Turn), s.busy = true → s.turns = .host a :: rest →
    ((∃ size off, a = .read .buf size off) ∨ (∃ size off v, a = .write .buf size off v)) →
    step s = .fault .hostBufWhileBusy

/-! ## Errors and interrupts -/

/-- Writing STATUS with bit 2 set ends the error state, DONE and OVR clear only with their own bits, nothing else
changes, and the next CMD write is accepted (60_exceptions.md R123). -/
def Obligations.StatusWriteEndsErrorState : Prop :=
  ∀ (s : State) (v c : Word) (rest : List Turn), s.busy = false → v.getLsbD 2 = true →
    s.turns = .host (.write .reg 4 0x00C v) :: .host (.write .reg 4 0x008 c) :: rest →
    ∃ t u, step s = .next t ∧ step t = .next u
      ∧ t = { s with turns := .host (.write .reg 4 0x008 c) :: rest, status := t.status }
      ∧ t.status.err = false ∧ t.status.ecode = .none
      ∧ t.status.done = (s.status.done && !v.getLsbD 1) ∧ t.status.ovr = (s.status.ovr && !v.getLsbD 3)
      ∧ u.pending = some c ∧ u.status = { t.status with done := false }

/-- A register-write error discards the write, sets ERR, keeps an earlier code, and leaves DONE, BUSY and OVR
(60_exceptions.md R120). While BUSY = 1 the same write only sets OVR. -/
def Obligations.PaletteRangeErrors : Prop :=
  ∀ (s : State) (off : Nat) (v : Word) (rest : List Turn) (e : ErrorCode), writesReg s off v rest → off % 4 = 0 →
    ((0x200 ≤ off ∧ off ≤ 0x23C ∧ 26 < v.toNat % 32 ∧ e = .inkRange)
      ∨ (0x16C ≤ off ∧ off ≤ 0x1FC ∧ e = .palRange)) →
    (s.busy = false → step s = .next { s with turns := rest, status :=
      { s.status with err := true, ecode := if s.status.err then s.status.ecode else e } })
    ∧ (s.busy = true → step s = .next { s with turns := rest, status := { s.status with ovr := true } })

/-- ERR stays 1, with the first error's code, until the host writes STATUS with bit 2 set or the block is reset
(10_state.md R22, 60_exceptions.md R122, R123). -/
def Obligations.ErrorStaysUntilCleared : Prop :=
  ∀ s t : State, s.status.err = true → step s = .next t →
    (t.status.err = true ∧ t.status.ecode = s.status.ecode)
    ∨ (∃ v rest, writesReg s 0x00C v rest ∧ v.getLsbD 2 = true)
    ∨ resetNext s

/-- While ERR = 1 and nothing is pending, no step but a reset changes a result register, none makes the engine
busy, and BUF changes only by a host write to it or a power-on (40_command_engine.md R67, 70_reset_and_hazards.md R139). -/
def Obligations.NoOutputWhileError : Prop :=
  ∀ s t : State, s.status.err = true → s.busy = false → step s = .next t →
    t.busy = false ∧ (¬ resetNext s → t.res = s.res)
    ∧ ((∀ x, t.readByte x = s.readByte x) ∨ s.turns.head? = some .powerOn
        ∨ ∃ size off v, s.turns.head? = some (.host (.write .buf size off v)))

/-- IRQ, from the STATUS and IRQEN words the host reads: a flag among bits 3..1 of STATUS whose enable among bits 2..0
of IRQEN is set (60_exceptions.md R124). -/
def Obligations.IrqFollowsStatusAndEnable : Prop :=
  ∀ s : State, s.irq = true ↔
    (regRead (regAt 0x00C) s) &&& ((regRead (regAt 0x010) s) <<< 1) ≠ 0

/-- What a STATUS read shows: the flags and the number of the code in their places, reserved bits 0 (10_state.md R22,
R18, 60_exceptions.md R118). That BUSY is 1 exactly while PENDING is valid is read from R22 and R36 (log entry 5,
DEDUCED). -/
def Obligations.StatusReadShowsFields : Prop :=
  ∀ s : State, (s.busy = true ↔ ∃ w, s.pending = some w)
    ∧ (regRead (regAt 0x00C) s).toNat
      = s.busy.toNat + 2 * s.status.done.toNat + 4 * s.status.err.toNat + 8 * s.status.ovr.toNat
        + 256 * codeNumber s.status.ecode

/-! ## Reset -/

/-- After reset every register reads its reset value, and nothing is pending (10_state.md R38). -/
def Obligations.ResetRegisterValues : Prop :=
  (∀ off, regOffsetOk off → regRead (regAt off) State.reset = resetValue off) ∧ State.reset.pending = none
    ∧ State.reset.busy = false

/-- Reset puts the block into its reset state in one step, whatever state it was in: every register has its reset
value, PENDING is invalid and IRQ is 0 (70_reset_and_hazards.md R133). The clauses on the schedule and on BUF_SIZE
are the model's choice (log entries 2 and 1, DESIGN CHOICE), and so is that a power-on resets the registers as a warm
reset does (log entry 11, DEDUCED). -/
def Obligations.ResetInOneStep : Prop :=
  ∀ (s : State) (rest : List Turn), (s.turns = .reset :: rest ∨ s.turns = .powerOn :: rest) →
    ∃ t, step s = .next t ∧ (∀ off, regOffsetOk off → regRead (regAt off) t = resetValue off)
      ∧ t.pending = none ∧ t.busy = false ∧ t.irq = false ∧ t.turns = rest ∧ t.bufLast = s.bufLast

/-- A reset while BUF stays powered changes no byte of BUF but those of the pending command's write range: none
when BUSY = 0 (70_reset_and_hazards.md R134, 20_memory.md R53). That an illegal pending word leaves every byte is the
model's choice (log entry 4, DEDUCED), and so is the empty range of a DECODE in mode 3 (log entries 4 and 16, DEDUCED). -/
def Obligations.ResetKeepsBuf : Prop :=
  ∀ (s : State) (rest : List Turn), s.turns = .reset :: rest →
    ∃ t, step s = .next t
      ∧ (s.pending = none → ∀ x, t.readByte x = s.readByte x)
      ∧ (∀ w i n, s.pending = some w → decode w = .ok i → writesSpan s i n → keepsOutside s t s.opr.dst.toNat n)
      ∧ (∀ w e, s.pending = some w → decode w = .error e → ∀ x, t.readByte x = s.readByte x)

/-! ## Every command -/

/-- Every command completes from every state: BUSY goes to 0 and DONE to 1, OVR stays, and no operand register,
palette entry, interrupt enable or parameter changes (40_command_engine.md R70, 10_state.md R24, R14). -/
def Obligations.EveryCommandCompletes : Prop :=
  ∀ (i : Instr) (s : State), ∃ t, exec i s = .next t ∧ t.busy = false ∧ t.status.done = true
    ∧ t.status.ovr = s.status.ovr ∧ t.opr = s.opr ∧ t.hwpal = s.hwpal ∧ t.inkmap = s.inkmap ∧ t.irqen = s.irqen
    ∧ t.bufLast = s.bufLast ∧ t.turns = s.turns ∧ t.readData = s.readData

/-- A command that ends in an error leaves BUF and every register but STATUS as they were (60_exceptions.md R121). -/
def Obligations.FailedCommandChangesOnlyStatus : Prop :=
  ∀ (i : Instr) (s t : State), s.status.err = false → exec i s = .next t → t.status.err = true →
    t = { s with status := t.status, pending := none } ∧ t.status.ecode ≠ .none

/-- Validation does not depend on data: with any other contents of BUF a command ends with the same STATUS
(40_command_engine.md R69). -/
def Obligations.ValidationIgnoresBuf : Prop :=
  ∀ (i : Instr) (s t t' : State) (m : Memory) (n : Nat), exec i s = .next t →
    exec i { s with buf := m, powerOns := n } = .next t' → t'.status = t.status

/-- While BUSY = 1, every step but the engine's and a reset leaves the pending word and every operand a command
reads, and the result registers and BUF (40_command_engine.md R66, R68, 20_memory.md R57). -/
def Obligations.PendingCommandIsStable : Prop :=
  ∀ s t : State, s.busy = true → step s = .next t → ¬ engineNext s → ¬ resetNext s →
    t.pending = s.pending ∧ t.opr = s.opr ∧ t.hwpal = s.hwpal ∧ t.inkmap = s.inkmap ∧ t.res = s.res ∧ t.buf = s.buf

/-! ## Error classes -/

/-- A zero size, a tile outside the grid, LINES = 0, or LINES above 200 with DEINT is BAD_GEOM, whatever the
addresses are (60_exceptions.md R118, R122). -/
def Obligations.GeometryErrors : Prop :=
  ∀ s : State,
    (¬ sized s → exec .pack s = .next (failed .badGeom s) ∧ exec .unpack s = .next (failed .badGeom s)
      ∧ exec .xform s = .next (failed .badGeom s))
    ∧ (¬ (sized s ∧ gridded s) → exec .encode s = .next (failed .badGeom s) ∧ exec .sheet s = .next (failed .badGeom s))
    ∧ (¬ tileInGrid s → exec .encode s = .next (failed .badGeom s))
    ∧ (s.opr.mode.mode ≠ 3 → (s.opr.lines = 0 ∨ (s.opr.mode.deint = true ∧ 200 < s.opr.lines.toNat)) →
        exec .decode s = .next (failed .badGeom s))

/-- Where the geometry is right, a read range or a write range that is not in BUF is BAD_ADDR, overlap or not
(60_exceptions.md R118, R122, 20_memory.md R46). -/
def Obligations.AddressErrors : Prop :=
  ∀ s : State,
    (¬ inside s s.opr.src.toNat (channels s) → exec .matchPixel s = .next (failed .badAddr s))
    ∧ (sized s → ¬ (inside s s.opr.src.toNat (maskSpan s) ∧ inside s s.opr.dst.toNat (spriteSpan s)) →
        exec .pack s = .next (failed .badAddr s))
    ∧ (sized s → ¬ (inside s s.opr.src.toNat (spriteSpan s) ∧ inside s s.opr.dst.toNat (maskSpan s)) →
        exec .unpack s = .next (failed .badAddr s))
    ∧ (sized s → ¬ (inside s s.opr.src.toNat (spriteSpan s) ∧ inside s s.opr.dst.toNat (spriteSpan s)) →
        exec .xform s = .next (failed .badAddr s))
    ∧ (sized s → gridded s → tileInGrid s →
        ¬ (inside s s.opr.src.toNat (gridBytes s) ∧ inside s s.opr.dst.toNat (spriteSpan s)) →
        exec .encode s = .next (failed .badAddr s))
    ∧ (∀ nc nr, tilesAcross s nc → tilesDown s nr → sized s → gridded s →
        ¬ (inside s s.opr.src.toNat (gridBytes s) ∧ inside s s.opr.dst.toNat (nc * nr * spriteSpan s)) →
        exec .sheet s = .next (failed .badAddr s))
    ∧ (¬ (inside s s.opr.src.toNat 16384 ∧ inside s s.opr.dst.toNat 16384) →
        exec .deint s = .next (failed .badAddr s))
    ∧ (s.opr.mode.mode ≠ 3 → 0 < s.opr.lines.toNat → (s.opr.mode.deint = true → s.opr.lines.toNat ≤ 200) →
        ¬ (inside s s.opr.src.toNat (screenSpan s) ∧ inside s s.opr.dst.toNat (gridSpan s)) →
        exec .decode s = .next (failed .badAddr s))

/-- Where the geometry and both ranges are right, ranges that overlap are OVERLAP, but for XFORM exactly in place
(60_exceptions.md R118, 20_memory.md R47). -/
def Obligations.OverlapErrors : Prop :=
  ∀ s : State,
    let src := s.opr.src.toNat
    let dst := s.opr.dst.toNat
    let both := fun n m => inside s src n ∧ inside s dst m ∧ meet src n dst m
    (sized s → both (maskSpan s) (spriteSpan s) → exec .pack s = .next (failed .overlap s))
    ∧ (sized s → both (spriteSpan s) (maskSpan s) → exec .unpack s = .next (failed .overlap s))
    ∧ (sized s → src ≠ dst → both (spriteSpan s) (spriteSpan s) → exec .xform s = .next (failed .overlap s))
    ∧ (sized s → gridded s → tileInGrid s → both (gridBytes s) (spriteSpan s) →
        exec .encode s = .next (failed .overlap s))
    ∧ (∀ nc nr, tilesAcross s nc → tilesDown s nr → sized s → gridded s →
        both (gridBytes s) (nc * nr * spriteSpan s) →
        exec .sheet s = .next (failed .overlap s))
    ∧ (both 16384 16384 → exec .deint s = .next (failed .overlap s))
    ∧ (s.opr.mode.mode ≠ 3 → 0 < s.opr.lines.toNat → (s.opr.mode.deint = true → s.opr.lines.toNat ≤ 200) →
        both (screenSpan s) (gridSpan s) → exec .decode s = .next (failed .overlap s))

/-- MODE[1:0] = 3 fails PIXIDX and DECODE with BAD_MODE before any other check, and ARG above 15 fails PALLOOK with
BAD_ARG (60_exceptions.md R118, 43_decode_palette.md R99, R100, R103). -/
def Obligations.ModeAndArgErrors : Prop :=
  ∀ s : State,
    (s.opr.mode.mode = 3 → exec .pixidx s = .next (failed .badMode s) ∧ exec .decode s = .next (failed .badMode s))
    ∧ (15 < s.opr.arg.toNat → exec .pallook s = .next (failed .badArg s))

/-! ## The commands -/

/-- NOP writes OUTLEN = 0 and nothing else but STATUS (40_command_engine.md R73). -/
def Obligations.NopOnlyCompletes : Prop :=
  ∀ s : State, exec .nop s = .next { s with
    res := withLength s 0, status := { s.status with done := true }, pending := none }

/-- MATCH samples the pixel at SRC: RESULT is 1 when the pixel is on and 0 when it is off, and no byte of BUF changes
(41_color_match.md R80, R78). -/
def Obligations.MatchSamplesPixel : Prop :=
  ∀ s : State, inside s s.opr.src.toNat (channels s) →
    ∃ t, exec .matchPixel s = .next t
      ∧ t = { s with res := { withLength s 0 with result := t.res.result },
                     status := { s.status with done := true }, pending := none }
      ∧ (pixelOn s s.opr.src.toNat → t.res.result = 1) ∧ (¬ pixelOn s s.opr.src.toNat → t.res.result = 0)

/-- PACK: bit 7-k of byte j of row r is mask pixel 8j+k of the row, or INVERSE beyond the width (42_pack_unpack.md
R83, R82, R81, 20_memory.md R49). -/
def Obligations.PackWritesRows : Prop :=
  ∀ s : State, sized s → addressable s (maskSpan s) (spriteSpan s) →
    ∃ t, exec .pack s = .next t ∧ finished s t (withLength s (spriteSpan s))
      ∧ keepsOutside s t s.opr.dst.toNat (spriteSpan s)
      ∧ ∀ r j k, r < s.opr.sprH.toNat → j < (s.opr.sprW.toNat + 7) / 8 → k < 8 →
          let on := (t.readByte (s.opr.dst.toNat + (r * ((s.opr.sprW.toNat + 7) / 8) + j))).getLsbD (7 - k)
          (8 * j + k < s.opr.sprW.toNat →
            (on = true ↔ s.readByte (s.opr.src.toNat + r * s.opr.sprW.toNat + (8 * j + k)) ≠ 0))
          ∧ (s.opr.sprW.toNat ≤ 8 * j + k → on = s.opr.flags.inverse)

/-- UNPACK: mask byte c of row r is bit 7-(c mod 8) of packed byte c div 8 of the row; padding bits and FLAGS are
ignored (42_pack_unpack.md R84, 20_memory.md R49). -/
def Obligations.UnpackWritesMask : Prop :=
  ∀ s : State, sized s → addressable s (spriteSpan s) (maskSpan s) →
    ∃ t, exec .unpack s = .next t ∧ finished s t (withLength s (maskSpan s))
      ∧ keepsOutside s t s.opr.dst.toNat (maskSpan s)
      ∧ ∀ r c, r < s.opr.sprH.toNat → c < s.opr.sprW.toNat →
          t.readByte (s.opr.dst.toNat + (r * s.opr.sprW.toNat + c))
            = if (s.readByte (s.opr.src.toNat + r * ((s.opr.sprW.toNat + 7) / 8) + c / 8)).getLsbD (7 - c % 8)
              then 1 else 0

/-- ENCODE: every bit of the output is the sampled pixel, or the pad bit, of the column and row the transform takes
it from; COUNT is 1 (42_pack_unpack.md R87, R86, R81, R82, 45_transform.md R111). -/
def Obligations.EncodeWritesSprite : Prop :=
  ∀ s : State, encodeReady s →
    ∃ t, exec .encode s = .next t ∧ finished s t { withLength s (spriteSpan s) with count := 1 }
      ∧ keepsOutside s t s.opr.dst.toNat (spriteSpan s)
      ∧ ∀ r j k, r < s.opr.sprH.toNat → j < (s.opr.sprW.toNat + 7) / 8 → k < 8 →
          spriteBit s t s.opr.dst.toNat s.opr.orgX.toNat s.opr.orgY.toNat r j k

/-- SHEET: the taken tiles, those whose box lies in the grid, are encoded row-major; COUNT and OUTLEN are exact, and
no tile at all is no error (42_pack_unpack.md R89, R90). -/
def Obligations.SheetWritesTiles : Prop :=
  ∀ (s : State) (nc nr : Nat), tilesAcross s nc → tilesDown s nr → sheetReady s nc nr →
    ∃ t, exec .sheet s = .next t ∧ finished s t t.res
      ∧ t.res = { s.res with count := t.res.count, outlen := t.res.outlen }
      ∧ t.res.count.toNat = nc * nr ∧ t.res.outlen.toNat = nc * nr * spriteSpan s
      ∧ keepsOutside s t s.opr.dst.toNat (nc * nr * spriteSpan s)
      ∧ ∀ cx cy r j k, cx < nc → cy < nr → r < s.opr.sprH.toNat → j < (s.opr.sprW.toNat + 7) / 8 → k < 8 →
          spriteBit s t (s.opr.dst.toNat + (cy * nc + cx) * spriteSpan s)
            (tileOrigin s cx cy).1 (tileOrigin s cx cy).2 r j k

/-- XFORM: every bit of the output comes from the row, byte and bit the flags say, read from BUF as it was when the
command began, in place or not (45_transform.md R111, R115). -/
def Obligations.XformPermutesBits : Prop :=
  ∀ s : State, xformReady s →
    ∃ t, exec .xform s = .next t ∧ finished s t (withLength s (spriteSpan s))
      ∧ keepsOutside s t s.opr.dst.toNat (spriteSpan s)
      ∧ ∀ r j k, r < s.opr.sprH.toNat → j < (s.opr.sprW.toNat + 7) / 8 → k < 8 →
          (t.readByte (s.opr.dst.toNat + (r * ((s.opr.sprW.toNat + 7) / 8) + j))).getLsbD (7 - k)
            = (s.readByte (s.opr.src.toNat
                + (fromRow s.opr.flags s.opr.sprH.toNat r * ((s.opr.sprW.toNat + 7) / 8)
                  + fromByte s.opr.flags ((s.opr.sprW.toNat + 7) / 8) j))).getLsbD (7 - fromPixel s.opr.flags k)

/-- BITREV: bit n of RESULT is bit 7-n of ARG for n below 8, and 0 above; ARG[31:8] is ignored (45_transform.md
R109, R116). -/
def Obligations.BitrevReversesByte : Prop :=
  ∀ s : State, ∃ t, exec .bitrev s = .next t
    ∧ t = { s with res := { withLength s 0 with result := t.res.result },
                   status := { s.status with done := true }, pending := none }
    ∧ (∀ n < 8, t.res.result.getLsbD n = s.opr.arg.getLsbD (7 - n)) ∧ (∀ n, 8 ≤ n → t.res.result.getLsbD n = false)

/-- DEINT: output byte o is the input byte the bank map names, for all 16384 offsets (44_deinterleave.md R104, R106,
R107). -/
def Obligations.DeintWritesBankMap : Prop :=
  ∀ s : State, addressable s 16384 16384 →
    ∃ t, exec .deint s = .next t ∧ finished s t (withLength s 16384) ∧ keepsOutside s t s.opr.dst.toNat 16384
      ∧ ∀ o < 16384, t.readByte (s.opr.dst.toNat + o) = s.readByte (s.opr.src.toNat + deintFrom o)

/-- DECODE: output pixel (x, y) has the colour INKMAP and HWPAL give the index the mode extracts, black where an entry
is not defined, with rows duplicated in mode 2 and columns in mode 0 (43_decode_palette.md R95, R97, R98, R101, R102,
R103). The clause on the pixels takes the invariant that INKMAP codes are at most 26 as its premise (10_state.md R37),
which StepKeepsInvariant states. -/
def Obligations.DecodeWritesGrid : Prop :=
  ∀ s : State, decodeReady s →
    ∃ t, exec .decode s = .next t
      ∧ finished s t { withLength s (gridSpan s) with
          outW := BitVec.ofNat 32 (gridOf s.opr.mode.mode.toNat s.opr.lines.toNat).1
          outH := BitVec.ofNat 32 (gridOf s.opr.mode.mode.toNat s.opr.lines.toNat).2 }
      ∧ keepsOutside s t s.opr.dst.toNat (gridSpan s)
      ∧ (s.inkCodesLegal = true → ∀ x y, x < (gridOf s.opr.mode.mode.toNat s.opr.lines.toNat).1 →
          y < (gridOf s.opr.mode.mode.toNat s.opr.lines.toNat).2 →
          let m := s.opr.mode.mode.toNat
          let l := if m = 2 then y / 2 else y
          let p := if m = 0 then x / 2 else x
          let b := s.readByte (lineFrom s l + p / perByte m)
          let a := s.opr.dst.toNat + (y * (gridOf m s.opr.lines.toNat).1 + x) * 3
          pixelColour s m b (p % perByte m)
            { r := t.readByte a, g := t.readByte (a + 1), b := t.readByte (a + 2) })

/-- PALLOOK: RESULT is 0x01RRGGBB where the ink and its hardware code are both defined, and 0 where one is not
(43_decode_palette.md R97, R98, R100). INKMAP codes are at most 26 (10_state.md R37). -/
def Obligations.PallookLooksUpInk : Prop :=
  ∀ (s : State) (ha : s.opr.arg.toNat < 16) (e : InkEntry) (hc : e.code.toNat < 27),
    e = s.inkmap[s.opr.arg.toNat]'ha →
    ∃ t, exec .pallook s = .next t
      ∧ t = { s with res := { withLength s 0 with result := t.res.result },
                     status := { s.status with done := true }, pending := none }
      ∧ ((e.v = true ∧ (s.hwpal[e.code.toNat]'hc).v = true) → t.res.result.toNat
          = 0x1000000 + (s.hwpal[e.code.toNat]'hc).rgb.r.toNat * 0x10000
            + (s.hwpal[e.code.toNat]'hc).rgb.g.toNat * 0x100 + (s.hwpal[e.code.toNat]'hc).rgb.b.toNat)
      ∧ (¬ (e.v = true ∧ (s.hwpal[e.code.toNat]'hc).v = true) → t.res.result = 0)

/-- PIXIDX: index bit q of pixel slot i stands in bit 4i+q of RESULT and is the byte bit of the table of R95, and
every other bit of RESULT is 0 (43_decode_palette.md R92 to R95, R99). -/
def Obligations.PixidxExtractsIndices : Prop :=
  ∀ s : State, s.opr.mode.mode ≠ 3 →
    ∃ t, exec .pixidx s = .next t
      ∧ t = { s with res := { withLength s 0 with result := t.res.result },
                     status := { s.status with done := true }, pending := none }
      ∧ ∀ i q, i < 8 → q < 4 → t.res.result.getLsbD (4 * i + q) =
          match indexBit s.opr.mode.mode.toNat q with
          | some p => decide (i < perByte s.opr.mode.mode.toNat) && s.opr.arg.getLsbD (p - i)
          | none => false

/-! ## Invariants and safe runs -/

/-- The reset state meets the invariants of 10_state.md R37, and BUF is in canonical form. -/
def Obligations.InvariantAtReset : Prop := State.reset.Inv

/-- Every step keeps the invariants of 10_state.md R37, and BUF in canonical form and inside BUF_SIZE. -/
def Obligations.StepKeepsInvariant : Prop := ∀ s t : State, s.Inv → step s = .next t → t.Inv

/-- No step but an illegal host access stops, and the schedule shrinks by the turn taken (20_memory.md R42,
70_reset_and_hazards.md R138). The clause on the schedule is the model's choice (log entry 2, DESIGN CHOICE), and so is
that an illegal access stops the run (log entry 9, DEDUCED). -/
def Obligations.LegalTurnsNeverStop : Prop :=
  ∀ s : State, (turnAllowed s ↔ ∃ t, step s = .next t) ∧ ∀ t, step s = .next t → t.turns = s.turns.tail

/-! ## Properties the spec derives -/

/-- PACK followed by UNPACK with the same sizes writes the mask back, each byte that is not zero as 1, for every
INVERSE value (42_pack_unpack.md R85). -/
def Obligations.PackThenUnpackRestoresMask : Prop :=
  ∀ (s t u : State) (d : Word), sized s → addressable s (maskSpan s) (spriteSpan s) → exec .pack s = .next t →
    addressable { t with opr := { s.opr with src := s.opr.dst, dst := d } } (spriteSpan s) (maskSpan s) →
    exec .unpack { t with opr := { s.opr with src := s.opr.dst, dst := d } } = .next u →
    ∀ k < maskSpan s, u.readByte (d.toNat + k) = if s.readByte (s.opr.src.toNat + k) ≠ 0 then 1 else 0

/-- With no transparent pixel among those sampled, ENCODE with INVERSE set writes the complement of what it writes with
INVERSE clear (42_pack_unpack.md R91). -/
def Obligations.InverseComplementsSprite : Prop :=
  ∀ (s t u : State) (f : TransformFlags), encodeReady s →
    (s.opr.ch4 = true → ∀ r c, r < s.opr.sprH.toNat → c < s.opr.sprW.toNat →
      s.opr.alphaThr.toNat
        ≤ (s.readByte (gridOffset s (s.opr.orgX.toNat + c) (s.opr.orgY.toNat + r) + 3)).toNat) →
    exec .encode (withFlags s { f with inverse := false }) = .next t →
    exec .encode (withFlags s { f with inverse := true }) = .next u →
    ∀ k < spriteSpan s, u.readByte (s.opr.dst.toNat + k) = ~~~ t.readByte (s.opr.dst.toNat + k)

/-- The same for every tile of a SHEET (42_pack_unpack.md R91). -/
def Obligations.InverseComplementsSheet : Prop :=
  ∀ (s t u : State) (f : TransformFlags) (nc nr : Nat), tilesAcross s nc → tilesDown s nr → sheetReady s nc nr →
    (s.opr.ch4 = true → ∀ cx cy r c, cx < nc → cy < nr → r < s.opr.sprH.toNat → c < s.opr.sprW.toNat →
      s.opr.alphaThr.toNat
        ≤ (s.readByte (gridOffset s ((tileOrigin s cx cy).1 + c) ((tileOrigin s cx cy).2 + r) + 3)).toNat) →
    exec .sheet (withFlags s { f with inverse := false }) = .next t →
    exec .sheet (withFlags s { f with inverse := true }) = .next u →
    ∀ k < nc * nr * spriteSpan s, u.readByte (s.opr.dst.toNat + k) = ~~~ t.readByte (s.opr.dst.toNat + k)

/-- Any transform applied twice is the identity (45_transform.md R112). -/
def Obligations.TransformTwiceIsIdentity : Prop :=
  ∀ (s t u : State) (d : Word), xformReady s → exec .xform s = .next t →
    xformReady { t with opr := { s.opr with src := s.opr.dst, dst := d } } →
    exec .xform { t with opr := { s.opr with src := s.opr.dst, dst := d } } = .next u →
    ∀ k < spriteSpan s, u.readByte (d.toNat + k) = s.readByte (s.opr.src.toNat + k)

/-- Each row of the MIRROR_ALIGN result is the row of the MIRROR result with its bytes in reversed order
(45_transform.md R113). -/
def Obligations.AlignReversesMirrorRows : Prop :=
  ∀ (s t u : State) (f : TransformFlags), xformReady s →
    exec .xform (withFlags s { f with mirror := true, mirrorAlign := false }) = .next t →
    exec .xform (withFlags s { f with mirrorAlign := true }) = .next u →
    ∀ r j, r < s.opr.sprH.toNat → j < (s.opr.sprW.toNat + 7) / 8 →
      u.readByte (s.opr.dst.toNat + (r * ((s.opr.sprW.toNat + 7) / 8) + j))
        = t.readByte (s.opr.dst.toNat
            + (r * ((s.opr.sprW.toNat + 7) / 8) + ((s.opr.sprW.toNat + 7) / 8 - 1 - j)))

/-- DEINT is a permutation: every input byte lands where the forward map says, and the output bytes are the input
bytes in another order (44_deinterleave.md R108). -/
def Obligations.DeintIsPermutation : Prop :=
  ∀ s t : State, addressable s 16384 16384 → exec .deint s = .next t →
    (∀ p < 16384, deintTo p < 16384 ∧ t.readByte (s.opr.dst.toNat + deintTo p) = s.readByte (s.opr.src.toNat + p))
    ∧ (t.readBytes s.opr.dst.toNat 16384).Perm (s.readBytes s.opr.src.toNat 16384)

/-- DECODE with DEINT = 1 gives the grid that DEINT into a scratch buffer and then DECODE with DEINT = 0 gives
(43_decode_palette.md R101). -/
def Obligations.DecodeBankedEqualsDeintThenDecode : Prop :=
  ∀ (s t u v : State) (scratch : Word), s.opr.mode.deint = true → decodeReady s → exec .decode s = .next t →
    addressable { s with opr := { s.opr with dst := scratch } } 16384 16384 →
    exec .deint { s with opr := { s.opr with dst := scratch } } = .next u →
    decodeReady { u with opr := { s.opr with src := scratch, mode := { s.opr.mode with deint := false } } } →
    exec .decode { u with opr := { s.opr with src := scratch, mode := { s.opr.mode with deint := false } } } = .next v →
    v.res.outW = t.res.outW ∧ v.res.outH = t.res.outH ∧ v.res.outlen = t.res.outlen
      ∧ ∀ k < gridSpan s, v.readByte (s.opr.dst.toNat + k) = t.readByte (s.opr.dst.toNat + k)

/-- Bit reversal is an involution (45_transform.md R110). -/
def Obligations.BitReversalIsInvolution : Prop := ∀ b : Byte, rev8 (rev8 b) = b

/-! ## What the host reads -/

/-- In every state a host read of ID, VERSION, CMD, a result register or an offset without a register returns what the
map gives there, the constants, 0, the result register and 0 (10_state.md R17 to R21, R32, R33), and a read of any
other register returns what `regRead` says of it, which OperandReadsShowFields and StatusReadShowsFields state. -/
def Obligations.FixedAndResultReads : Prop :=
  ∀ (s : State) (off : Nat) (rest : List Turn), regOffsetOk off → s.turns = .host (.read .reg 4 off) :: rest →
    ∃ d, step s = .next { s with turns := rest, readData := d } ∧ d = regRead (regAt off) s
      ∧ (off = 0x000 → d = 0x42505531) ∧ (off = 0x004 → d = 0x00010000) ∧ (off = 0x008 → d = 0)
      ∧ (off = 0x064 → d = s.res.result) ∧ (off = 0x068 → d = s.res.count) ∧ (off = 0x06C → d = s.res.outlen)
      ∧ (off = 0x070 → d = s.res.outW) ∧ (off = 0x074 → d = s.res.outH)
      ∧ (((0x078 ≤ off ∧ off ≤ 0x0FC) ∨ (0x16C ≤ off ∧ off ≤ 0x1FC) ∨ 0x240 ≤ off) → d = 0)

/-- What the RW registers and the palette entries read in every state: each field in its place, reserved bits 0
(10_state.md R17, R18, R23 to R31, R33, R34). -/
def Obligations.OperandReadsShowFields : Prop :=
  ∀ s : State,
    let rd := fun off => (regRead (regAt off) s).toNat
    let o := s.opr
    rd 0x010 = s.irqen.doneie.toNat + 2 * s.irqen.errie.toNat + 4 * s.irqen.ovrie.toNat
    ∧ rd 0x014 = o.src.toNat ∧ rd 0x018 = o.dst.toNat ∧ rd 0x01C = o.sprW.toNat ∧ rd 0x020 = o.sprH.toNat
    ∧ rd 0x024 = o.gridW.toNat ∧ rd 0x028 = o.gridH.toNat ∧ rd 0x02C = o.offX.toNat ∧ rd 0x030 = o.offY.toNat
    ∧ rd 0x034 = o.gapX.toNat ∧ rd 0x038 = o.gapY.toNat ∧ rd 0x03C = o.orgX.toNat ∧ rd 0x040 = o.orgY.toNat
    ∧ rd 0x044 = o.ch4.toNat
    ∧ rd 0x048 = 0x10000 * o.matchRef.r.toNat + 0x100 * o.matchRef.g.toNat + o.matchRef.b.toNat
    ∧ rd 0x04C = o.matchTol.toNat ∧ rd 0x050 = o.alphaThr.toNat
    ∧ rd 0x054 = o.flags.inverse.toNat + 2 * o.flags.mirror.toNat + 4 * o.flags.mirrorAlign.toNat
        + 8 * o.flags.flipV.toNat
    ∧ rd 0x058 = o.mode.mode.toNat + 16 * o.mode.deint.toNat
    ∧ rd 0x05C = o.lines.toNat ∧ rd 0x060 = o.arg.toNat
    ∧ (∀ c : Fin 27, rd (0x100 + 4 * c.val) = 0x80000000 * s.hwpal[c].v.toNat + 0x10000 * s.hwpal[c].rgb.r.toNat
        + 0x100 * s.hwpal[c].rgb.g.toNat + s.hwpal[c].rgb.b.toNat)
    ∧ (∀ i : Fin 16, rd (0x200 + 4 * i.val) = 0x80000000 * s.inkmap[i].v.toNat + s.inkmap[i].code.toNat)
end

