-- ==== Sys2Proof/Laws/Bits.lean ====
section
/-! SUPPORT. The bits of the words that fields are put together to. -/

namespace Sys2Proof.Machine

@[simp] theorem getLsbD_place {n : Nat} (x : BitVec n) (lo i : Nat) :
    (place x lo).getLsbD i = (decide (i < 32) && decide (lo ≤ i) && x.getLsbD (i - lo)) := by
  simp only [place, BitVec.getLsbD_shiftLeft, BitVec.getLsbD_setWidth]
  by_cases h1 : i < 32
  · by_cases h2 : i < lo
    · simp [h1, h2, show ¬ lo ≤ i by omega]
    · simp [h1, h2, show lo ≤ i by omega, show i - lo < 32 by omega]
  · simp [h1]

@[simp] theorem getLsbD_placeBit (b : Bool) (n i : Nat) (hn : n < 32) :
    (placeBit b n).getLsbD i = (decide (i = n) && b) := by
  by_cases h : i = n
  · subst h
    rw [placeBit, getLsbD_place]
    simp [hn]
  · simp only [placeBit, getLsbD_place, h, decide_false, Bool.false_and, Bool.and_eq_false_iff,
      decide_eq_false_iff_not]
    by_cases hle : n ≤ i
    · exact .inr (BitVec.getLsbD_of_ge _ _ (by omega))
    · exact .inl (.inr hle)

@[simp] theorem getLsbD_field (v : Word) (lo len i : Nat) :
    (field v lo len).getLsbD i = (decide (i < len) && v.getLsbD (lo + i)) := by
  simp [field]

/-- The bits of a palette index put together from four. -/
theorem getLsbD_nibble (b3 b2 b1 b0 : Bool) (q : Nat) :
    (nibble b3 b2 b1 b0).getLsbD q =
      match q with
      | 0 => b0
      | 1 => b1
      | 2 => b2
      | 3 => b3
      | _ => false := by
  match q with
  | 0 | 1 | 2 | 3 => revert b3 b2 b1 b0; decide
  | n + 4 => exact BitVec.getLsbD_of_ge _ _ (by omega)

/-- A number over another that is below `2 ^ k`, put together bit by bit. -/
theorem mul_pow_or {a b k : Nat} (h : b < 2 ^ k) : a * 2 ^ k ||| b = a * 2 ^ k + b := by
  rw [← Nat.shiftLeft_eq, Nat.shiftLeft_add_eq_or_of_lt h]

/-- A colour word as a number (R27, R33). -/
theorem rgbWord_toNat (c : Rgb) :
    (rgbWord c).toNat = 0x10000 * c.r.toNat + 0x100 * c.g.toNat + c.b.toNat := by
  have h1 := c.r.isLt
  have h2 := c.g.isLt
  have h3 := c.b.isLt
  simp only [rgbWord, place, BitVec.toNat_or, BitVec.toNat_shiftLeft, BitVec.toNat_setWidth, Nat.shiftLeft_eq]
  rw [show c.r.toNat % 2 ^ 32 * 2 ^ 16 % 2 ^ 32 = c.r.toNat * 2 ^ 16 by omega,
    show c.g.toNat % 2 ^ 32 * 2 ^ 8 % 2 ^ 32 = c.g.toNat * 2 ^ 8 by omega,
    show c.b.toNat % 2 ^ 32 * 2 ^ 0 % 2 ^ 32 = c.b.toNat by omega, mul_pow_or (by omega),
    show c.r.toNat * 2 ^ 16 + c.g.toNat * 2 ^ 8 = (c.r.toNat * 2 ^ 8 + c.g.toNat) * 2 ^ 8 by omega,
    mul_pow_or (by omega)]
  omega

/-- A word whose bit 31 is put on top of the other bits, as a number (R33, R34). -/
theorem placeBit_top_or_toNat {v : Bool} {w : Word} (h : w.toNat < 2 ^ 31) :
    (placeBit v 31 ||| w).toNat = 0x80000000 * v.toNat + w.toNat := by
  rw [BitVec.toNat_or, show (placeBit v 31).toNat = v.toNat * 2 ^ 31 by cases v <;> rfl, mul_pow_or h]
  omega

/-- Words that agree in each of their 32 bits are the same. -/
theorem word_ext {x y : Word} (h : ∀ i < 32, x.getLsbD i = y.getLsbD i) : x = y :=
  BitVec.eq_of_getLsbD_eq h

end Sys2Proof.Machine
end

