-- ==== Sys2Proof/Laws/Lists.lean ====
section
/-! SUPPORT. Lists built row by row: where the element of a row stands in the whole. -/

namespace Sys2Proof.Laws

variable {α β : Type}

theorem length_flatMap_uniform (l : List α) (f : α → List β) (n : Nat) (h : ∀ a ∈ l, (f a).length = n) :
    (l.flatMap f).length = l.length * n := by
  induction l with
  | nil => simp
  | cons a l ih =>
    have ha := h a (by simp)
    have hl := ih (fun b hb => h b (by simp [hb]))
    simp only [List.flatMap_cons, List.length_append, ha, hl, List.length_cons]
    ring

/-- Element `k` of row `i`, where every row has `n` elements. -/
theorem getElem?_flatMap_uniform (l : List α) (f : α → List β) (n : Nat) (h : ∀ a ∈ l, (f a).length = n)
    (i k : Nat) (hi : i < l.length) (hk : k < n) :
    (l.flatMap f)[i * n + k]? = (f l[i])[k]? := by
  induction l generalizing i with
  | nil => simp at hi
  | cons a l ih =>
    have ha := h a (by simp)
    rw [List.flatMap_cons]
    cases i with
    | zero => rw [List.getElem?_append_left (by omega)]; simp
    | succ i =>
      rw [List.getElem?_append_right (by rw [ha, Nat.succ_mul]; omega), ha,
        show (i + 1) * n + k - n = i * n + k by rw [Nat.succ_mul]; omega,
        ih (fun b hb => h b (by simp [hb])) i (by simpa using hi)]
      simp

/-- The same for rows numbered by `List.range`. -/
theorem getElem?_flatMap_range (m n : Nat) (f : Nat → List β) (h : ∀ a, a < m → (f a).length = n)
    (i k : Nat) (hi : i < m) (hk : k < n) :
    ((List.range m).flatMap f)[i * n + k]? = (f i)[k]? := by
  rw [getElem?_flatMap_uniform _ f n (fun a ha => h a (List.mem_range.mp ha)) i k (by simpa using hi) hk]
  simp

theorem length_flatMap_range (m n : Nat) (f : Nat → List β) (h : ∀ a, a < m → (f a).length = n) :
    ((List.range m).flatMap f).length = m * n := by
  rw [length_flatMap_uniform _ f n (fun a ha => h a (List.mem_range.mp ha)), List.length_range]

theorem getElem?_map_range (f : Nat → β) (m k : Nat) (hk : k < m) :
    ((List.range m).map f)[k]? = some (f k) := by
  simp [hk]

end Sys2Proof.Laws
end

