-- ==== Sys2Proof/Laws/Memory.lean ====
section
/-! SUPPORT. The laws of BUF: what a block write changes and what it leaves alone, and that it keeps the
canonical form. They hold of every memory, canonical or not, where no hypothesis says otherwise. -/

namespace Sys2Proof.Machine

/-! ## Cells -/

theorem mem_cellsAt {a : Nat} {bs : List Byte} {c : Host.Cell} (h : c ∈ cellsAt a bs) :
    a ≤ c.1 ∧ c.1 < a + bs.length := by
  induction bs generalizing a with
  | nil => simp [cellsAt] at h
  | cons b bs ih =>
    rcases List.mem_cons.mp h with rfl | h
    · simp
    · have := ih h
      simp only [List.length_cons]
      omega

theorem lookup_cellsAt (a : Nat) (bs : List Byte) (k : Nat) : (cellsAt a bs).lookup (a + k) = bs[k]? := by
  induction bs generalizing a k with
  | nil => simp [cellsAt]
  | cons b bs ih =>
    cases k with
    | zero => simp [cellsAt]
    | succ k =>
      have hne : (a + (k + 1) == a) = false := by simp
      rw [cellsAt, List.lookup, hne, show a + (k + 1) = a + 1 + k by omega]
      simpa using ih (a + 1) k

theorem lookup_cellsAt_none (a : Nat) (bs : List Byte) (x : Nat) (h : ¬ (a ≤ x ∧ x < a + bs.length)) :
    (cellsAt a bs).lookup x = none := by
  rw [List.lookup_eq_none_iff]
  intro c hc
  have := mem_cellsAt hc
  simp only [bne_iff_ne, ne_eq]
  omega

theorem lookup_filter (l : List Host.Cell) (p : Nat → Bool) (x : Nat) :
    (l.filter (fun c => p c.1)).lookup x = if p x then l.lookup x else none := by
  induction l with
  | nil => simp
  | cons c l ih =>
    obtain ⟨a, b⟩ := c
    by_cases hx : x = a
    · subst hx
      by_cases hp : p x <;> simp [List.lookup, hp, ih]
    · have hne : (x == a) = false := by simpa using hx
      by_cases hp : p a <;> simp [List.lookup, hp, hne, ih]

theorem lookup_append (l m : List Host.Cell) (x : Nat) :
    (l ++ m).lookup x = (l.lookup x).or (m.lookup x) := by
  induction l with
  | nil => simp
  | cons c l ih =>
    obtain ⟨a, b⟩ := c
    by_cases hx : x = a
    · subst hx; simp [List.lookup]
    · have hne : (x == a) = false := by simpa using hx
      simp [List.lookup, hne, ih]

/-! ## Block writes -/

@[simp] theorem writeBlock_nil (m : Memory) (a : Nat) : m.writeBlock a [] = m := rfl

/-- A byte inside the block reads as the block's byte. -/
theorem get?_writeBlock_inside (m : Memory) (a : Nat) (bs : List Byte) (k : Nat) (hk : k < bs.length) :
    (m.writeBlock a bs).get? (a + k) = bs[k]? := by
  cases bs with
  | nil => simp at hk
  | cons b bs =>
    simp only [Memory.writeBlock, Memory.get?, lookup_append,
      lookup_filter m.cells (fun x => decide (x < a)), lookup_cellsAt]
    rw [List.getElem?_eq_getElem hk]
    simp

/-- A byte outside the block is as it was. -/
theorem get?_writeBlock_outside (m : Memory) (a : Nat) (bs : List Byte) (x : Nat)
    (hx : ¬ (a ≤ x ∧ x < a + bs.length)) : (m.writeBlock a bs).get? x = m.get? x := by
  cases bs with
  | nil => rfl
  | cons b bs =>
    simp only [Memory.writeBlock, Memory.get?, lookup_append,
      lookup_filter m.cells (fun x => decide (x < a)),
      lookup_filter m.cells (fun x => decide (a + (b :: bs).length ≤ x)), lookup_cellsAt_none a _ x hx]
    by_cases h : x < a
    · have h2 : ¬ a + (b :: bs).length ≤ x := by omega
      simp only [h, h2, decide_true, decide_false, if_true, Bool.false_eq_true, if_false, Option.or_none]
    · have h2 : a + (b :: bs).length ≤ x := by omega
      simp only [h, h2, decide_true, decide_false, if_true, Bool.false_eq_true, if_false, Option.none_or]

theorem cellsAt_pairwise (a : Nat) (bs : List Byte) :
    (cellsAt a bs).Pairwise (fun c d => c.1 < d.1) := by
  induction bs generalizing a with
  | nil => simp [cellsAt]
  | cons b bs ih =>
    refine List.pairwise_cons.mpr ⟨fun c hc => ?_, ih (a + 1)⟩
    have := mem_cellsAt hc
    show a < c.1
    omega

/-- A block write keeps the canonical form. -/
theorem wf_writeBlock {m : Memory} (h : m.wf = true) (a : Nat) (bs : List Byte) :
    (m.writeBlock a bs).wf = true := by
  cases bs with
  | nil => exact h
  | cons b bs =>
    simp only [Memory.wf, decide_eq_true_eq] at h
    simp only [Memory.writeBlock, Memory.wf, decide_eq_true_eq, List.append_assoc]
    refine List.pairwise_append.mpr ⟨h.filter _, List.pairwise_append.mpr
      ⟨cellsAt_pairwise a _, h.filter _, ?_⟩, ?_⟩
    · intro c hc d hd
      have hc := mem_cellsAt hc
      have hd := List.mem_filter.mp hd
      simp only [decide_eq_true_eq] at hd
      omega
    · intro c hc d hd
      have hc := (List.mem_filter.mp hc).2
      simp only [decide_eq_true_eq] at hc
      rcases List.mem_append.mp hd with hd | hd
      · have := mem_cellsAt hd
        omega
      · have hd := (List.mem_filter.mp hd).2
        simp only [decide_eq_true_eq] at hd
        omega

/-- A block write below `n` keeps the stored bytes below `n`. -/
theorem below_writeBlock {m : Memory} {n : Nat} (h : m.below n = true) (a : Nat) (bs : List Byte)
    (hb : bs.length = 0 ∨ a + bs.length ≤ n) : (m.writeBlock a bs).below n = true := by
  cases bs with
  | nil => exact h
  | cons b bs =>
    simp only [Memory.below, List.all_eq_true, decide_eq_true_eq] at h ⊢
    intro c hc
    simp only [Memory.writeBlock, List.mem_append, List.mem_filter] at hc
    rcases hc with (hc | hc) | hc
    · exact h c hc.1
    · have := mem_cellsAt hc
      simp only [List.length_cons] at *
      omega
    · exact h c hc.1

theorem wf_empty : (Memory.mk []).wf = true := rfl

theorem lookup_of_mem {l : List Host.Cell} (hl : l.Pairwise (fun c d => c.1 < d.1)) {c : Host.Cell}
    (hc : c ∈ l) : l.lookup c.1 = some c.2 := by
  induction l with
  | nil => simp at hc
  | cons d l ih =>
    obtain ⟨a, b⟩ := d
    rw [List.pairwise_cons] at hl
    rcases List.mem_cons.mp hc with rfl | hc
    · simp [List.lookup]
    · have hlt := hl.1 c hc
      have hne : (c.1 == a) = false := by simp only [beq_eq_false_iff_ne, ne_eq]; omega
      simp [List.lookup, hne, ih hl.2 hc]

theorem mem_of_lookup {l : List Host.Cell} {a : Nat} {b : Byte} (h : l.lookup a = some b) : (a, b) ∈ l := by
  induction l with
  | nil => simp at h
  | cons d l ih =>
    obtain ⟨x, y⟩ := d
    by_cases hx : a = x
    · subst hx
      simp [List.lookup] at h
      simp [h]
    · have hne : (a == x) = false := by simpa using hx
      simp only [List.lookup, hne] at h
      exact List.mem_cons_of_mem _ (ih h)

/-- The canonical form is canonical: two memories in it that hold the same bytes are the same data. -/
theorem memory_ext {m n : Memory} (hm : m.wf = true) (hn : n.wf = true) (h : ∀ a, m.get? a = n.get? a) :
    m = n := by
  simp only [Memory.wf, decide_eq_true_eq] at hm hn
  obtain ⟨l⟩ := m
  obtain ⟨r⟩ := n
  simp only [Memory.get?] at h hm hn
  congr 1
  have hsub : ∀ c, c ∈ l ↔ c ∈ r := fun c =>
    ⟨fun hc => mem_of_lookup ((h c.1) ▸ lookup_of_mem hm hc),
     fun hc => mem_of_lookup ((h c.1).symm ▸ lookup_of_mem hn hc)⟩
  have nodup : ∀ {l : List Host.Cell}, l.Pairwise (fun c d => c.1 < d.1) → l.Nodup := fun hl =>
    hl.imp (fun hlt heq => by rw [heq] at hlt; exact Nat.lt_irrefl _ hlt)
  exact List.Perm.eq_of_pairwise
    (fun a b _ _ hab hba => absurd (Nat.lt_trans hab hba) (Nat.lt_irrefl _)) hm hn
    ((List.perm_ext_iff_of_nodup (nodup hm) (nodup hn)).mpr hsub)

/-! ## Bytes of a state -/

/-- After a block write to BUF, a byte inside the block reads as the block's. -/
theorem readByte_writeBlock_inside {s t : State} {a : Nat} {bs : List Byte}
    (hbuf : t.buf = s.buf.writeBlock a bs) {k : Nat} (hk : k < bs.length) {b : Byte} (hb : bs[k]? = some b) :
    t.readByte (a + k) = b := by
  simp [State.readByte, hbuf, get?_writeBlock_inside _ _ _ _ hk, hb]

/-- After a block write to BUF, a byte outside the block reads as before. -/
theorem readByte_writeBlock_outside {s t : State} {a : Nat} {bs : List Byte}
    (hbuf : t.buf = s.buf.writeBlock a bs) (hp : t.powerOns = s.powerOns) {x : Nat}
    (hx : ¬ (a ≤ x ∧ x < a + bs.length)) : t.readByte x = s.readByte x := by
  simp [State.readByte, hbuf, hp, get?_writeBlock_outside _ _ _ _ hx]

@[simp] theorem length_readBytes (s : State) (a n : Nat) : (s.readBytes a n).length = n := by
  simp [State.readBytes]

theorem getElem?_readBytes (s : State) (a n k : Nat) (hk : k < n) :
    (s.readBytes a n)[k]? = some (s.readByte (a + k)) := by
  simp [State.readBytes, hk]

end Sys2Proof.Machine
end

