-- ==== Sys2Proof/Laws/State.lean ====
section
/-! SUPPORT. The fields of the state after each named update: one lemma per field per update, each true by rfl. -/

namespace Sys2Proof.Machine

variable (s : State)

/-! ## setOverrun -/

@[simp] theorem setOverrun_status : (setOverrun s).status = { s.status with ovr := true } := rfl
@[simp] theorem setOverrun_irqen : (setOverrun s).irqen = s.irqen := rfl
@[simp] theorem setOverrun_opr : (setOverrun s).opr = s.opr := rfl
@[simp] theorem setOverrun_res : (setOverrun s).res = s.res := rfl
@[simp] theorem setOverrun_hwpal : (setOverrun s).hwpal = s.hwpal := rfl
@[simp] theorem setOverrun_inkmap : (setOverrun s).inkmap = s.inkmap := rfl
@[simp] theorem setOverrun_pending : (setOverrun s).pending = s.pending := rfl
@[simp] theorem setOverrun_buf : (setOverrun s).buf = s.buf := rfl
@[simp] theorem setOverrun_bufLast : (setOverrun s).bufLast = s.bufLast := rfl
@[simp] theorem setOverrun_turns : (setOverrun s).turns = s.turns := rfl
@[simp] theorem setOverrun_readData : (setOverrun s).readData = s.readData := rfl
@[simp] theorem setOverrun_powerOns : (setOverrun s).powerOns = s.powerOns := rfl
@[simp] theorem setOverrun_abandons : (setOverrun s).abandons = s.abandons := rfl

/-! ## registerError -/

@[simp] theorem registerError_status (e : ErrorCode) : (registerError e s).status = s.status.raise e := rfl
@[simp] theorem registerError_irqen (e : ErrorCode) : (registerError e s).irqen = s.irqen := rfl
@[simp] theorem registerError_opr (e : ErrorCode) : (registerError e s).opr = s.opr := rfl
@[simp] theorem registerError_res (e : ErrorCode) : (registerError e s).res = s.res := rfl
@[simp] theorem registerError_hwpal (e : ErrorCode) : (registerError e s).hwpal = s.hwpal := rfl
@[simp] theorem registerError_inkmap (e : ErrorCode) : (registerError e s).inkmap = s.inkmap := rfl
@[simp] theorem registerError_pending (e : ErrorCode) : (registerError e s).pending = s.pending := rfl
@[simp] theorem registerError_buf (e : ErrorCode) : (registerError e s).buf = s.buf := rfl
@[simp] theorem registerError_bufLast (e : ErrorCode) : (registerError e s).bufLast = s.bufLast := rfl
@[simp] theorem registerError_turns (e : ErrorCode) : (registerError e s).turns = s.turns := rfl
@[simp] theorem registerError_readData (e : ErrorCode) : (registerError e s).readData = s.readData := rfl
@[simp] theorem registerError_powerOns (e : ErrorCode) : (registerError e s).powerOns = s.powerOns := rfl
@[simp] theorem registerError_abandons (e : ErrorCode) : (registerError e s).abandons = s.abandons := rfl

/-! ## errorEntry -/

@[simp] theorem errorEntry_status (e : ErrorCode) : (errorEntry e s).status = { s.status.raise e with done := true } := rfl
@[simp] theorem errorEntry_irqen (e : ErrorCode) : (errorEntry e s).irqen = s.irqen := rfl
@[simp] theorem errorEntry_opr (e : ErrorCode) : (errorEntry e s).opr = s.opr := rfl
@[simp] theorem errorEntry_res (e : ErrorCode) : (errorEntry e s).res = s.res := rfl
@[simp] theorem errorEntry_hwpal (e : ErrorCode) : (errorEntry e s).hwpal = s.hwpal := rfl
@[simp] theorem errorEntry_inkmap (e : ErrorCode) : (errorEntry e s).inkmap = s.inkmap := rfl
@[simp] theorem errorEntry_pending (e : ErrorCode) : (errorEntry e s).pending = none := rfl
@[simp] theorem errorEntry_buf (e : ErrorCode) : (errorEntry e s).buf = s.buf := rfl
@[simp] theorem errorEntry_bufLast (e : ErrorCode) : (errorEntry e s).bufLast = s.bufLast := rfl
@[simp] theorem errorEntry_turns (e : ErrorCode) : (errorEntry e s).turns = s.turns := rfl
@[simp] theorem errorEntry_readData (e : ErrorCode) : (errorEntry e s).readData = s.readData := rfl
@[simp] theorem errorEntry_powerOns (e : ErrorCode) : (errorEntry e s).powerOns = s.powerOns := rfl
@[simp] theorem errorEntry_abandons (e : ErrorCode) : (errorEntry e s).abandons = s.abandons := rfl

/-! ## accept -/

@[simp] theorem accept_status (v : Word) : (accept v s).status = { s.status with done := false } := rfl
@[simp] theorem accept_irqen (v : Word) : (accept v s).irqen = s.irqen := rfl
@[simp] theorem accept_opr (v : Word) : (accept v s).opr = s.opr := rfl
@[simp] theorem accept_res (v : Word) : (accept v s).res = s.res := rfl
@[simp] theorem accept_hwpal (v : Word) : (accept v s).hwpal = s.hwpal := rfl
@[simp] theorem accept_inkmap (v : Word) : (accept v s).inkmap = s.inkmap := rfl
@[simp] theorem accept_pending (v : Word) : (accept v s).pending = some v := rfl
@[simp] theorem accept_buf (v : Word) : (accept v s).buf = s.buf := rfl
@[simp] theorem accept_bufLast (v : Word) : (accept v s).bufLast = s.bufLast := rfl
@[simp] theorem accept_turns (v : Word) : (accept v s).turns = s.turns := rfl
@[simp] theorem accept_readData (v : Word) : (accept v s).readData = s.readData := rfl
@[simp] theorem accept_powerOns (v : Word) : (accept v s).powerOns = s.powerOns := rfl
@[simp] theorem accept_abandons (v : Word) : (accept v s).abandons = s.abandons := rfl

/-! ## statusWrite -/

@[simp] theorem statusWrite_irqen (v : Word) : (statusWrite v s).irqen = s.irqen := rfl
@[simp] theorem statusWrite_opr (v : Word) : (statusWrite v s).opr = s.opr := rfl
@[simp] theorem statusWrite_res (v : Word) : (statusWrite v s).res = s.res := rfl
@[simp] theorem statusWrite_hwpal (v : Word) : (statusWrite v s).hwpal = s.hwpal := rfl
@[simp] theorem statusWrite_inkmap (v : Word) : (statusWrite v s).inkmap = s.inkmap := rfl
@[simp] theorem statusWrite_pending (v : Word) : (statusWrite v s).pending = s.pending := rfl
@[simp] theorem statusWrite_buf (v : Word) : (statusWrite v s).buf = s.buf := rfl
@[simp] theorem statusWrite_bufLast (v : Word) : (statusWrite v s).bufLast = s.bufLast := rfl
@[simp] theorem statusWrite_turns (v : Word) : (statusWrite v s).turns = s.turns := rfl
@[simp] theorem statusWrite_readData (v : Word) : (statusWrite v s).readData = s.readData := rfl
@[simp] theorem statusWrite_powerOns (v : Word) : (statusWrite v s).powerOns = s.powerOns := rfl
@[simp] theorem statusWrite_abandons (v : Word) : (statusWrite v s).abandons = s.abandons := rfl
@[simp] theorem statusWrite_done (v : Word) : (statusWrite v s).status.done = (s.status.done && !v.getLsbD 1) := rfl
@[simp] theorem statusWrite_err (v : Word) : (statusWrite v s).status.err = (s.status.err && !v.getLsbD 2) := rfl
@[simp] theorem statusWrite_ovr (v : Word) : (statusWrite v s).status.ovr = (s.status.ovr && !v.getLsbD 3) := rfl
@[simp] theorem statusWrite_ecode (v : Word) :
    (statusWrite v s).status.ecode = if v.getLsbD 2 then .none else s.status.ecode := rfl

/-! ## complete -/

@[simp] theorem complete_status (r : ResultRegs) (bs : List Byte) : (complete r bs s).status = { s.status with done := true } := rfl
@[simp] theorem complete_irqen (r : ResultRegs) (bs : List Byte) : (complete r bs s).irqen = s.irqen := rfl
@[simp] theorem complete_opr (r : ResultRegs) (bs : List Byte) : (complete r bs s).opr = s.opr := rfl
@[simp] theorem complete_res (r : ResultRegs) (bs : List Byte) : (complete r bs s).res = { r with outlen := BitVec.ofNat 32 bs.length } := rfl
@[simp] theorem complete_hwpal (r : ResultRegs) (bs : List Byte) : (complete r bs s).hwpal = s.hwpal := rfl
@[simp] theorem complete_inkmap (r : ResultRegs) (bs : List Byte) : (complete r bs s).inkmap = s.inkmap := rfl
@[simp] theorem complete_pending (r : ResultRegs) (bs : List Byte) : (complete r bs s).pending = none := rfl
@[simp] theorem complete_buf (r : ResultRegs) (bs : List Byte) : (complete r bs s).buf = s.buf.writeBlock s.dstAddr bs := rfl
@[simp] theorem complete_bufLast (r : ResultRegs) (bs : List Byte) : (complete r bs s).bufLast = s.bufLast := rfl
@[simp] theorem complete_turns (r : ResultRegs) (bs : List Byte) : (complete r bs s).turns = s.turns := rfl
@[simp] theorem complete_readData (r : ResultRegs) (bs : List Byte) : (complete r bs s).readData = s.readData := rfl
@[simp] theorem complete_powerOns (r : ResultRegs) (bs : List Byte) : (complete r bs s).powerOns = s.powerOns := rfl
@[simp] theorem complete_abandons (r : ResultRegs) (bs : List Byte) : (complete r bs s).abandons = s.abandons := rfl

/-! ## resetRegisters -/

@[simp] theorem resetRegisters_status : (resetRegisters s).status = State.reset.status := rfl
@[simp] theorem resetRegisters_irqen : (resetRegisters s).irqen = State.reset.irqen := rfl
@[simp] theorem resetRegisters_opr : (resetRegisters s).opr = State.reset.opr := rfl
@[simp] theorem resetRegisters_res : (resetRegisters s).res = State.reset.res := rfl
@[simp] theorem resetRegisters_hwpal : (resetRegisters s).hwpal = State.reset.hwpal := rfl
@[simp] theorem resetRegisters_inkmap : (resetRegisters s).inkmap = State.reset.inkmap := rfl
@[simp] theorem resetRegisters_pending : (resetRegisters s).pending = none := rfl
@[simp] theorem resetRegisters_buf : (resetRegisters s).buf = s.buf := rfl
@[simp] theorem resetRegisters_bufLast : (resetRegisters s).bufLast = s.bufLast := rfl
@[simp] theorem resetRegisters_turns : (resetRegisters s).turns = s.turns := rfl
@[simp] theorem resetRegisters_readData : (resetRegisters s).readData = s.readData := rfl
@[simp] theorem resetRegisters_powerOns : (resetRegisters s).powerOns = s.powerOns := rfl
@[simp] theorem resetRegisters_abandons : (resetRegisters s).abandons = s.abandons := rfl

/-! ## warmReset -/

@[simp] theorem warmReset_status : (warmReset s).status = State.reset.status := rfl
@[simp] theorem warmReset_irqen : (warmReset s).irqen = State.reset.irqen := rfl
@[simp] theorem warmReset_opr : (warmReset s).opr = State.reset.opr := rfl
@[simp] theorem warmReset_res : (warmReset s).res = State.reset.res := rfl
@[simp] theorem warmReset_hwpal : (warmReset s).hwpal = State.reset.hwpal := rfl
@[simp] theorem warmReset_inkmap : (warmReset s).inkmap = State.reset.inkmap := rfl
@[simp] theorem warmReset_pending : (warmReset s).pending = none := rfl
@[simp] theorem warmReset_buf : (warmReset s).buf = s.buf.writeBlock s.dstAddr (abandonedBytes s) := rfl
@[simp] theorem warmReset_bufLast : (warmReset s).bufLast = s.bufLast := rfl
@[simp] theorem warmReset_turns : (warmReset s).turns = s.turns := rfl
@[simp] theorem warmReset_readData : (warmReset s).readData = s.readData := rfl
@[simp] theorem warmReset_powerOns : (warmReset s).powerOns = s.powerOns := rfl
@[simp] theorem warmReset_abandons : (warmReset s).abandons = s.abandons + 1 := rfl

/-! ## powerOn -/

@[simp] theorem powerOn_status : (powerOn s).status = State.reset.status := rfl
@[simp] theorem powerOn_irqen : (powerOn s).irqen = State.reset.irqen := rfl
@[simp] theorem powerOn_opr : (powerOn s).opr = State.reset.opr := rfl
@[simp] theorem powerOn_res : (powerOn s).res = State.reset.res := rfl
@[simp] theorem powerOn_hwpal : (powerOn s).hwpal = State.reset.hwpal := rfl
@[simp] theorem powerOn_inkmap : (powerOn s).inkmap = State.reset.inkmap := rfl
@[simp] theorem powerOn_pending : (powerOn s).pending = none := rfl
@[simp] theorem powerOn_buf : (powerOn s).buf = { cells := [] } := rfl
@[simp] theorem powerOn_bufLast : (powerOn s).bufLast = s.bufLast := rfl
@[simp] theorem powerOn_turns : (powerOn s).turns = s.turns := rfl
@[simp] theorem powerOn_readData : (powerOn s).readData = s.readData := rfl
@[simp] theorem powerOn_powerOns : (powerOn s).powerOns = s.powerOns + 1 := rfl
@[simp] theorem powerOn_abandons : (powerOn s).abandons = s.abandons := rfl

/-! ## raise -/

@[simp] theorem raise_done (st : Status) (e : ErrorCode) : (st.raise e).done = st.done := rfl
@[simp] theorem raise_err (st : Status) (e : ErrorCode) : (st.raise e).err = true := rfl
@[simp] theorem raise_ovr (st : Status) (e : ErrorCode) : (st.raise e).ovr = st.ovr := rfl
@[simp] theorem raise_ecode (st : Status) (e : ErrorCode) :
    (st.raise e).ecode = if st.err then st.ecode else e := rfl

end Sys2Proof.Machine
end

