-- ==== Sys2Proof/Laws/Ops.lean ====
section
/-! SUPPORT. What each shared operation can do, said once. -/

namespace Sys2Proof.Machine

/-! ## Range checks -/

theorem inBuf_iff {s : State} {a n : Nat} : s.inBuf a n = true ↔ n = 0 ∨ a + n ≤ s.bufSize := by
  simp [State.inBuf]

theorem overlaps_iff {a n b m : Nat} :
    overlaps a n b m = true ↔ 0 < n ∧ 0 < m ∧ a < b + m ∧ b < a + n := by
  simp [overlaps]

/-- Both ranges of a command are in BUF. -/
theorem rangesBad_eq_false {s : State} {n m : Nat} :
    s.rangesBad n m = false ↔ (n = 0 ∨ s.srcAddr + n ≤ s.bufSize) ∧ (m = 0 ∨ s.dstAddr + m ≤ s.bufSize) := by
  simp only [State.rangesBad, State.inBuf, Bool.or_eq_false_iff, Bool.not_eq_false', decide_eq_true_eq]

theorem rangesBad_eq_true {s : State} {n m : Nat} :
    s.rangesBad n m = true ↔ (n ≠ 0 ∧ s.bufSize < s.srcAddr + n) ∨ (m ≠ 0 ∧ s.bufSize < s.dstAddr + m) := by
  simp [State.rangesBad, State.inBuf]

/-- The read range and the write range of a command are disjoint. -/
theorem rangesOverlap_eq_false {s : State} {n m : Nat} :
    s.rangesOverlap n m = false ↔
      n = 0 ∨ m = 0 ∨ s.srcAddr + n ≤ s.dstAddr ∨ s.dstAddr + m ≤ s.srcAddr := by
  simp only [State.rangesOverlap, overlaps, decide_eq_false_iff_not]
  omega

theorem bufSize_le (s : State) : s.bufSize ≤ 2 ^ 32 := by
  have := s.bufLast.isLt
  simp only [State.bufSize]
  omega

/-! ## Checks -/

@[simp] theorem firstFailure_nil : firstFailure [] = none := rfl

@[simp] theorem firstFailure_pass {e : ErrorCode} {l : List (Bool × ErrorCode)} :
    firstFailure ((false, e) :: l) = firstFailure l := rfl

@[simp] theorem firstFailure_fail {e : ErrorCode} {l : List (Bool × ErrorCode)} :
    firstFailure ((true, e) :: l) = some e := rfl

theorem firstFailure_cons {b : Bool} {e : ErrorCode} {l : List (Bool × ErrorCode)} :
    firstFailure ((b, e) :: l) = if b then some e else firstFailure l := rfl

/-- Checks pass together exactly when each of them passes. -/
theorem firstFailure_eq_none {l : List (Bool × ErrorCode)} :
    firstFailure l = none ↔ ∀ c ∈ l, c.1 = false := by
  induction l with
  | nil => simp
  | cons c l ih =>
    obtain ⟨b, e⟩ := c
    cases b <;> simp [firstFailure_cons, ih]

/-- A failing check is one of the checks. -/
theorem firstFailure_mem {l : List (Bool × ErrorCode)} {e : ErrorCode} (h : firstFailure l = some e) :
    (true, e) ∈ l := by
  induction l with
  | nil => simp at h
  | cons c l ih =>
    obtain ⟨b, f⟩ := c
    cases b with
    | false => exact List.mem_cons_of_mem _ (ih h)
    | true => simp only [firstFailure_fail, Option.some.injEq] at h; simp [h]

/-! ## The completion step -/

@[simp] theorem command_none (res : ResultRegs) (bytes : List Byte) (s : State) :
    command none res bytes s = .next (complete res bytes s) := rfl

@[simp] theorem command_some (e : ErrorCode) (res : ResultRegs) (bytes : List Byte) (s : State) :
    command (some e) res bytes s = .next (errorEntry e s) := rfl

/-- A completion step always answers a next state: error entry, or success. -/
theorem command_cases {err : Option ErrorCode} {res : ResultRegs} {bytes : List Byte} {s t : State}
    (h : command err res bytes s = .next t) :
    (∃ e, err = some e ∧ t = errorEntry e s) ∨ (err = none ∧ t = complete res bytes s) := by
  cases err with
  | none => exact .inr ⟨rfl, (Host.Outcome.next.inj h).symm⟩
  | some e => exact .inl ⟨e, rfl, (Host.Outcome.next.inj h).symm⟩

/-- What a successful completion writes, byte by byte. -/
theorem complete_readByte_inside {r : ResultRegs} {bs : List Byte} {s : State} {k : Nat} {b : Byte}
    (hb : bs[k]? = some b) : (complete r bs s).readByte (s.dstAddr + k) = b :=
  readByte_writeBlock_inside (s := s) rfl (List.getElem?_eq_some_iff.mp hb).1 hb

/-- What a successful completion leaves alone in BUF. -/
theorem complete_readByte_outside {r : ResultRegs} {bs : List Byte} {s : State} {x : Nat}
    (hx : ¬ (s.dstAddr ≤ x ∧ x < s.dstAddr + bs.length)) : (complete r bs s).readByte x = s.readByte x :=
  readByte_writeBlock_outside (s := s) (t := complete r bs s) rfl rfl hx

@[simp] theorem errorEntry_readByte (e : ErrorCode) (s : State) (x : Nat) :
    (errorEntry e s).readByte x = s.readByte x := rfl

/-! ## Issue -/

/-- A CMD write has three outcomes (R65). -/
theorem issue_cases (v : Word) (s : State) :
    (s.busy = true ∧ issue v s = setOverrun s)
    ∨ (s.busy = false ∧ s.status.err = true
        ∧ issue v s = { s with status := { s.status with ovr := true, done := true } })
    ∨ (s.busy = false ∧ s.status.err = false ∧ issue v s = accept v s) := by
  unfold issue
  cases s.busy <;> cases h : s.status.err <;> simp

/-- What a host write to a register can do. -/
theorem regWrite_cases (r : Reg) (v : Word) (s : State) :
    (writeKind r = .ignored ∧ regWrite r v s = s)
    ∨ (writeKind r = .whenIdle ∧ s.busy = true ∧ regWrite r v s = setOverrun s)
    ∨ (writeKind r = .always ∧ regWrite r v s = regStore r v s)
    ∨ (writeKind r = .whenIdle ∧ s.busy = false ∧ regWrite r v s = regStore r v s) := by
  unfold regWrite
  cases writeKind r <;> cases s.busy <;> simp

/-- What a host access can do. -/
theorem hostAccess_cases (a : HostAccess) (s : State) :
    (∃ f, accessFault a s = some f ∧ hostAccess a s = .fault f)
    ∨ (accessFault a s = none ∧ hostAccess a s = .next (accessEffect a s)) := by
  unfold hostAccess
  cases h : accessFault a s <;> simp

/-- What the engine's turn can do. -/
theorem engineStep_cases (s : State) :
    (s.pending = none ∧ engineStep s = .next s)
    ∨ (∃ v i, s.pending = some v ∧ decode v = .ok i ∧ engineStep s = exec i s)
    ∨ (∃ v e, s.pending = some v ∧ decode v = .error e ∧ engineStep s = .next (errorEntry .badOp s)) := by
  unfold engineStep
  cases hp : s.pending with
  | none => exact .inl ⟨rfl, rfl⟩
  | some v =>
    cases hd : decode v with
    | ok i => exact .inr (.inl ⟨v, i, rfl, hd, by simp only [hd]⟩)
    | error e => exact .inr (.inr ⟨v, e, rfl, hd, by simp only [hd]⟩)

/-- A step is the next turn of the schedule, or the engine's. -/
theorem step_cases (s : State) :
    (s.turns = [] ∧ step s = engineStep s)
    ∨ (∃ t rest, s.turns = t :: rest ∧ step s = takeTurn t { s with turns := rest }) := by
  unfold step runTurn
  cases h : s.turns with
  | nil => exact .inl ⟨rfl, rfl⟩
  | cons t rest => exact .inr ⟨t, rest, rfl, rfl⟩

end Sys2Proof.Machine
end

