-- ==== Sys2Proof/Laws/Meanings.lean ====
section
/-! SUPPORT. The outputs of the commands: how many bytes they are, and what stands at each place. -/

namespace Sys2Proof.Machine

open Sys2Proof.Laws

/-! ## Bits of a byte -/

theorem packByte_bits (b7 b6 b5 b4 b3 b2 b1 b0 : Bool) :
    BitVec.ofNat 8 (b7.toNat <<< 7 + (b6.toNat <<< 6 + (b5.toNat <<< 5 + (b4.toNat <<< 4 + (b3.toNat <<< 3
      + (b2.toNat <<< 2 + (b1.toNat <<< 1 + (b0.toNat <<< 0 + 0))))))))
      = BitVec.ofBoolListBE [b7, b6, b5, b4, b3, b2, b1, b0] := by
  revert b7 b6 b5 b4 b3 b2 b1 b0
  decide

/-- Bit `7 - k` of a packed byte is pixel `k` (R82). -/
theorem packByte_bit (f : Nat → Bool) (k : Nat) (hk : k < 8) : (packByte f).getLsbD (7 - k) = f k := by
  have h : packByte f = BitVec.ofBoolListBE [f 0, f 1, f 2, f 3, f 4, f 5, f 6, f 7] :=
    packByte_bits (f 0) (f 1) (f 2) (f 3) (f 4) (f 5) (f 6) (f 7)
  rw [h]
  generalize f = g at *
  have key : ∀ a b c d e f g h : Bool, ∀ k < 8,
      (BitVec.ofBoolListBE [a, b, c, d, e, f, g, h]).getLsbD (7 - k)
        = ([a, b, c, d, e, f, g, h][k]?).getD false := by decide
  have := key (g 0) (g 1) (g 2) (g 3) (g 4) (g 5) (g 6) (g 7) k hk
  rw [this]
  match k, hk with
  | 0, _ | 1, _ | 2, _ | 3, _ | 4, _ | 5, _ | 6, _ | 7, _ => rfl

/-- Bit `n` of a reversed byte is bit `7 - n` of the byte (R109). -/
theorem rev8_bit (b : Byte) (n : Nat) (hn : n < 8) : (rev8 b).getLsbD n = b.getLsbD (7 - n) := by
  have key : ∀ b : BitVec 8, ∀ n < 8, (rev8 b).getLsbD n = b.getLsbD (7 - n) := by decide
  exact key b n hn

theorem byte_ext {a b : Byte} (h : ∀ k < 8, a.getLsbD (7 - k) = b.getLsbD (7 - k)) : a = b := by
  apply BitVec.eq_of_getLsbD_eq
  intro i hi
  have := h (7 - i) (by omega)
  rwa [show 7 - (7 - i) = i by omega] at this

/-! ## Packed rows -/

theorem bpr_le (w : Nat) : w ≤ 8 * bpr w := by unfold bpr; omega

@[simp] theorem length_packRow (m : Nat → Bool) (w : Nat) (pad : Bool) : (packRow m w pad).length = bpr w := by
  simp [packRow]

theorem getElem?_packRow (m : Nat → Bool) (w : Nat) (pad : Bool) (j : Nat) (hj : j < bpr w) :
    (packRow m w pad)[j]? = some (packByte (fun k => bitVal m w pad (8 * j + k))) := by
  simp [packRow, hj]

@[simp] theorem length_packBytes (s : State) : (packBytes s).length = s.packedSize := by
  rw [packBytes, length_flatMap_range _ (bpr s.spriteW) _ (by simp), State.packedSize, Nat.mul_comm]

theorem getElem?_packBytes (s : State) (r j : Nat) (hr : r < s.spriteH) (hj : j < bpr s.spriteW) :
    (packBytes s)[r * bpr s.spriteW + j]?
      = some (packByte (fun k => bitVal (maskPixel s r) s.spriteW s.inverse (8 * j + k))) := by
  rw [packBytes, getElem?_flatMap_range _ (bpr s.spriteW) _ (by simp) r j hr hj, getElem?_packRow _ _ _ _ hj]

@[simp] theorem length_unpackBytes (s : State) : (unpackBytes s).length = s.maskSize := by
  rw [unpackBytes, length_flatMap_range _ s.spriteW _ (by simp), State.maskSize, Nat.mul_comm]

theorem getElem?_unpackBytes (s : State) (r c : Nat) (hr : r < s.spriteH) (hc : c < s.spriteW) :
    (unpackBytes s)[r * s.spriteW + c]? = some (maskByte (packedPixel s r c)) := by
  rw [unpackBytes, getElem?_flatMap_range _ s.spriteW _ (by simp) r c hr hc]
  simp [hc]

/-! ## The transform -/

@[simp] theorem length_xformRows (f : TransformFlags) (rows : List (List Byte)) :
    (xformRows f rows).length = rows.length := by
  unfold xformRows alignStep mirrorStep flipStep
  split <;> split <;> split <;> simp

/-- The transform keeps the width of the rows. -/
theorem xformRows_width {f : TransformFlags} {rows : List (List Byte)} {n : Nat}
    (h : ∀ row ∈ rows, row.length = n) : ∀ row ∈ xformRows f rows, row.length = n := by
  have hflip : ∀ row ∈ flipStep f rows, row.length = n := by
    unfold flipStep
    split
    · simpa using h
    · exact h
  have hmirror : ∀ row ∈ mirrorStep f (flipStep f rows), row.length = n := by
    unfold mirrorStep
    split
    · intro row hrow
      obtain ⟨row', hrow', rfl⟩ := List.mem_map.mp hrow
      simpa using hflip row' hrow'
    · exact hflip
  unfold xformRows alignStep
  split
  · intro row hrow
    obtain ⟨row', hrow', rfl⟩ := List.mem_map.mp hrow
    simpa using hmirror row' hrow'
  · exact hmirror

/-- The row of the input that output row `r` comes from (R111). -/
def sourceRow (f : TransformFlags) (h r : Nat) : Nat := if f.flipV then h - 1 - r else r

/-- The byte of the input row that output byte `j` comes from (R111). -/
def sourceByte (f : TransformFlags) (n j : Nat) : Nat := if f.mirrorAlign then n - 1 - j else j

/-- What happens to a byte: its bits are reversed or kept (R111). -/
def mirrorByte (f : TransformFlags) (b : Byte) : Byte := if f.mirror || f.mirrorAlign then rev8 b else b

/-- Byte `j` of row `r` after the transform. -/
theorem getElem?_xformRows (f : TransformFlags) (rows : List (List Byte)) (n r j : Nat)
    (hw : ∀ row ∈ rows, row.length = n) (hr : r < rows.length) (hj : j < n) :
    ∃ row, (xformRows f rows)[r]? = some row ∧ row.length = n ∧
      row[j]? = ((rows[sourceRow f rows.length r]?.bind (·[sourceByte f n j]?)).map (mirrorByte f)) := by
  have hr' : sourceRow f rows.length r < rows.length := by unfold sourceRow; split <;> omega
  have hflip : (flipStep f rows)[r]? = some rows[sourceRow f rows.length r] := by
    unfold flipStep sourceRow
    split
    · rw [List.getElem?_reverse hr]; simp
    · simp [hr]
  have hlen : rows[sourceRow f rows.length r].length = n := hw _ (List.getElem_mem hr')
  rw [List.getElem?_eq_getElem hr']
  generalize rows[sourceRow f rows.length r] = row at hflip hlen
  have hback : row[n - 1 - j]? = some (row[n - 1 - j]'(by omega)) := List.getElem?_eq_getElem _
  simp only [xformRows, alignStep, mirrorStep, sourceByte]
  cases hA : f.mirrorAlign <;> cases hM : f.mirror <;>
    simp [hflip, hlen, hj, hback, mirrorByte, hA, hM]

/-- The bytes of a transformed sprite, row by row. -/
theorem getElem?_xformRows_flatten (f : TransformFlags) (rows : List (List Byte)) (n r j : Nat)
    (hw : ∀ row ∈ rows, row.length = n) (hr : r < rows.length) (hj : j < n) :
    (xformRows f rows).flatten[r * n + j]?
      = (rows[sourceRow f rows.length r]?.bind (·[sourceByte f n j]?)).map (mirrorByte f) := by
  obtain ⟨row, h1, -, h3⟩ := getElem?_xformRows f rows n r j hw hr hj
  have hr2 : r < (xformRows f rows).length := by simpa using hr
  rw [← List.flatMap_id', getElem?_flatMap_uniform _ _ n (fun a ha => xformRows_width hw a ha) r j hr2 hj, ← h3]
  rw [List.getElem?_eq_getElem hr2] at h1
  simp only [Option.some.injEq] at h1
  simp [h1]

theorem length_xformRows_flatten {f : TransformFlags} {rows : List (List Byte)} {n : Nat}
    (hw : ∀ row ∈ rows, row.length = n) : (xformRows f rows).flatten.length = rows.length * n := by
  rw [← List.flatMap_id', length_flatMap_uniform _ _ n (fun a ha => xformRows_width hw a ha)]
  simp

theorem packedRows_width (s : State) : ∀ row ∈ packedRows s, row.length = bpr s.spriteW := by
  simp [packedRows]

@[simp] theorem length_packedRows (s : State) : (packedRows s).length = s.spriteH := by simp [packedRows]

@[simp] theorem length_xformBytes (s : State) : (xformBytes s).length = s.packedSize := by
  rw [xformBytes, length_xformRows_flatten (packedRows_width s), length_packedRows, State.packedSize, Nat.mul_comm]

/-- Byte `j` of row `r` of XFORM's output (R115). -/
theorem getElem?_xformBytes (s : State) (r j : Nat) (hr : r < s.spriteH) (hj : j < bpr s.spriteW) :
    (xformBytes s)[r * bpr s.spriteW + j]?
      = some (mirrorByte s.opr.flags (s.readByte (s.srcAddr
          + (sourceRow s.opr.flags s.spriteH r * bpr s.spriteW + sourceByte s.opr.flags (bpr s.spriteW) j)))) := by
  have hr' : sourceRow s.opr.flags s.spriteH r < s.spriteH := by unfold sourceRow; split <;> omega
  have hj' : sourceByte s.opr.flags (bpr s.spriteW) j < bpr s.spriteW := by unfold sourceByte; split <;> omega
  rw [xformBytes, getElem?_xformRows_flatten _ _ _ r j (packedRows_width s) (by simpa using hr) hj]
  rw [length_packedRows, packedRows, getElem?_map_range _ _ _ hr', Option.bind_some,
    getElem?_readBytes _ _ _ _ hj', Option.map_some, Nat.add_assoc]

/-! ## Sprites -/

theorem spriteRows_width (s : State) (ox oy : Nat) : ∀ row ∈ spriteRows s ox oy, row.length = bpr s.spriteW := by
  simp [spriteRows]

@[simp] theorem length_spriteRows (s : State) (ox oy : Nat) : (spriteRows s ox oy).length = s.spriteH := by
  simp [spriteRows]

@[simp] theorem length_encodeSprite (s : State) (ox oy : Nat) : (encodeSprite s ox oy).length = s.packedSize := by
  rw [encodeSprite, length_xformRows_flatten (spriteRows_width s ox oy), length_spriteRows, State.packedSize,
    Nat.mul_comm]

/-- Byte `j` of row `r` of an encoded sprite (R86). -/
theorem getElem?_encodeSprite (s : State) (ox oy r j : Nat) (hr : r < s.spriteH) (hj : j < bpr s.spriteW) :
    (encodeSprite s ox oy)[r * bpr s.spriteW + j]?
      = some (mirrorByte s.opr.flags (packByte (fun k => bitVal
          (fun c => sample s (gridPixel s (ox + c) (oy + sourceRow s.opr.flags s.spriteH r)))
          s.spriteW s.inverse (8 * sourceByte s.opr.flags (bpr s.spriteW) j + k)))) := by
  have hr' : sourceRow s.opr.flags s.spriteH r < s.spriteH := by unfold sourceRow; split <;> omega
  have hj' : sourceByte s.opr.flags (bpr s.spriteW) j < bpr s.spriteW := by unfold sourceByte; split <;> omega
  rw [encodeSprite, getElem?_xformRows_flatten _ _ _ r j (spriteRows_width s ox oy) (by simpa using hr) hj]
  rw [length_spriteRows, spriteRows, getElem?_map_range _ _ _ hr', Option.bind_some,
    getElem?_packRow _ _ _ _ hj', Option.map_some]

@[simp] theorem length_sheetBytes (s : State) : (sheetBytes s).length = s.sheetSize := by
  rw [sheetBytes, length_flatMap_range _ (s.tileCols * s.packedSize) _
    (fun _ _ => length_flatMap_range _ _ _ (by simp)), State.sheetSize]
  ring

/-- Byte `k` of the sprite of tile `(cx, cy)` in SHEET's output (R90). -/
theorem getElem?_sheetBytes (s : State) (cx cy k : Nat) (hx : cx < s.tileCols) (hy : cy < s.tileRows)
    (hk : k < s.packedSize) :
    (sheetBytes s)[(cy * s.tileCols + cx) * s.packedSize + k]?
      = (encodeSprite s (s.tileX cx) (s.tileY cy))[k]? := by
  have hin : cx * s.packedSize + k < s.tileCols * s.packedSize := by
    have : (cx + 1) * s.packedSize ≤ s.tileCols * s.packedSize := Nat.mul_le_mul_right _ hx
    rw [Nat.succ_mul] at this
    omega
  rw [show (cy * s.tileCols + cx) * s.packedSize + k
      = cy * (s.tileCols * s.packedSize) + (cx * s.packedSize + k) by ring,
    sheetBytes, getElem?_flatMap_range _ (s.tileCols * s.packedSize) _
      (fun _ _ => length_flatMap_range _ _ _ (by simp)) cy _ hy hin,
    getElem?_flatMap_range _ s.packedSize _ (by simp) cx k hx hk]

/-- A tile number is below the tile count exactly when the tile's box lies in the grid (R89). -/
theorem lt_tileCount_iff {g o sz gap c : Nat} (hs : 0 < sz) :
    c < tileCount g o sz gap ↔ o + c * (sz + gap) + sz ≤ g := by
  unfold tileCount
  split
  · rename_i h
    have := Nat.zero_le (c * (sz + gap))
    omega
  · rw [Nat.lt_succ_iff, Nat.le_div_iff_mul_le (by omega)]
    omega

/-! ## DEINT -/

@[simp] theorem length_deintLines (s : State) : (deintLines s).length = 16000 := by
  exact length_flatMap_range 200 80 _ (by simp)

theorem length_spareBytes (s : State) (a : Nat) : (s.readBytes a bankSpare).length = 48 := length_readBytes s a _

@[simp] theorem length_deintTail (s : State) : (deintTail s).length = 384 := by
  exact length_flatMap_range 8 48 _ (fun _ _ => length_spareBytes _ _)

/-- The source offset of each output offset of DEINT (R108). -/
def deintSource (o : Nat) : Nat :=
  if o < 16000 then bankedLine (o / 80) + o % 80
  else 2048 * ((o - 16000) / 48) + 2000 + (o - 16000) % 48

/-- Byte `o` of DEINT's output (R107, R108). -/
theorem getElem?_deint (s : State) (o : Nat) (ho : o < 16384) :
    (deintLines s ++ deintTail s)[o]? = some (s.readByte (s.srcAddr + deintSource o)) := by
  unfold deintSource
  split
  · rename_i h
    rw [List.getElem?_append_left (by simpa using h)]
    conv_lhs => rw [← Nat.div_add_mod' o 80]
    rw [deintLines, getElem?_flatMap_range Config.screenLines 80 _ (by simp) (o / 80) (o % 80)
        (show o / 80 < 200 by omega) (Nat.mod_lt _ (by omega)),
      getElem?_readBytes _ _ _ _ (show o % 80 < 80 from Nat.mod_lt _ (by omega)), Nat.add_assoc]
  · rename_i h
    rw [List.getElem?_append_right (by simpa using h), length_deintLines]
    conv_lhs => rw [← Nat.div_add_mod' (o - 16000) 48]
    rw [deintTail, getElem?_flatMap_range Config.banks 48 _ (fun _ _ => length_spareBytes _ _)
        ((o - 16000) / 48) ((o - 16000) % 48) (show (o - 16000) / 48 < 8 by omega) (Nat.mod_lt _ (by omega)),
      getElem?_readBytes _ _ _ _ (show (o - 16000) % 48 < bankSpare from Nat.mod_lt _ (by omega)), Nat.add_assoc]
    rfl

/-! ## DECODE -/

@[simp] theorem length_decodeByte (s : State) (b : Byte) : (decodeByte s b).length
    = pixelsPerByte s.opr.mode.mode * (pixelCopies s.opr.mode.mode * 3) := by
  rw [decodeByte, length_flatMap_range _ (pixelCopies s.opr.mode.mode * 3) _ (by simp [rgbBytes])]

/-- The output columns of one source byte add up to OUT_W (R102). -/
theorem bytesPerLine_pixels (m : BitVec 2) : 80 * (pixelsPerByte m * (pixelCopies m * 3)) = outWidth m * 3 := by
  revert m
  decide

@[simp] theorem length_decodeRow (s : State) (l : Nat) : (decodeRow s l).length = outWidth s.opr.mode.mode * 3 := by
  rw [decodeRow, length_flatMap_range _ _ _ (fun _ _ => length_decodeByte s _), bytesPerLine_pixels]

@[simp] theorem length_decodeBytes (s : State) : (decodeBytes s).length = s.decodeSize := by
  rw [decodeBytes, length_flatMap_range _ (rowCopies s.opr.mode.mode * (outWidth s.opr.mode.mode * 3)) _ (by simp),
    State.decodeSize, outHeight]
  ring

/-- Copies of one list laid end to end: which copy an element stands in makes no difference. -/
theorem getElem?_replicate_flatten {α : Type} (c n i k : Nat) (l : List α) (hl : l.length = n) (hi : i < c)
    (hk : k < n) : (List.replicate c l).flatten[i * n + k]? = l[k]? := by
  rw [← List.flatMap_id', getElem?_flatMap_uniform _ _ n (by simp [hl]) i k (by simpa using hi) hk]
  simp

/-- Byte `e` of output pixel `(x, y)` of DECODE (R103). The output column is split into source byte, slot and copy,
the output row into scanline and copy. -/
theorem getElem?_decodeBytes (s : State) (l yc xb i xc e : Nat) (hl : l < s.lineCount)
    (hy : yc < rowCopies s.opr.mode.mode) (hx : xb < 80) (hi : i < pixelsPerByte s.opr.mode.mode)
    (hc : xc < pixelCopies s.opr.mode.mode) (he : e < 3) :
    (decodeBytes s)[(l * rowCopies s.opr.mode.mode + yc) * (outWidth s.opr.mode.mode * 3)
        + (xb * (pixelsPerByte s.opr.mode.mode * (pixelCopies s.opr.mode.mode * 3))
          + (i * (pixelCopies s.opr.mode.mode * 3) + (xc * 3 + e)))]?
      = (rgbBytes (effectiveRgb s (pixelIndex s.opr.mode.mode (s.readByte (lineAddr s l + xb)) i)))[e]? := by
  have h3 : xc * 3 + e < pixelCopies s.opr.mode.mode * 3 := by omega
  have h2 : i * (pixelCopies s.opr.mode.mode * 3) + (xc * 3 + e)
      < pixelsPerByte s.opr.mode.mode * (pixelCopies s.opr.mode.mode * 3) := by
    have := Nat.mul_le_mul_right (pixelCopies s.opr.mode.mode * 3) hi
    rw [Nat.succ_mul] at this
    omega
  have h1 : xb * (pixelsPerByte s.opr.mode.mode * (pixelCopies s.opr.mode.mode * 3))
      + (i * (pixelCopies s.opr.mode.mode * 3) + (xc * 3 + e)) < outWidth s.opr.mode.mode * 3 := by
    rw [← bytesPerLine_pixels]
    have := Nat.mul_le_mul_right (pixelsPerByte s.opr.mode.mode * (pixelCopies s.opr.mode.mode * 3)) hx
    rw [Nat.succ_mul] at this
    omega
  have h0 : yc * (outWidth s.opr.mode.mode * 3)
      + (xb * (pixelsPerByte s.opr.mode.mode * (pixelCopies s.opr.mode.mode * 3))
          + (i * (pixelCopies s.opr.mode.mode * 3) + (xc * 3 + e)))
      < rowCopies s.opr.mode.mode * (outWidth s.opr.mode.mode * 3) := by
    have := Nat.mul_le_mul_right (outWidth s.opr.mode.mode * 3) hy
    rw [Nat.succ_mul] at this
    omega
  rw [show ∀ d, (l * rowCopies s.opr.mode.mode + yc) * (outWidth s.opr.mode.mode * 3) + d
      = l * (rowCopies s.opr.mode.mode * (outWidth s.opr.mode.mode * 3))
        + (yc * (outWidth s.opr.mode.mode * 3) + d) by intro d; ring,
    decodeBytes, getElem?_flatMap_range _ _ _ (fun _ _ => by simp) l _ hl h0,
    getElem?_replicate_flatten _ _ _ _ _ (length_decodeRow s l) hy h1,
    decodeRow, getElem?_flatMap_range _ _ _ (fun _ _ => length_decodeByte s _) xb _ hx h2,
    decodeByte, getElem?_flatMap_range _ _ _ (fun _ _ => by simp [rgbBytes]) i _ hi h3,
    getElem?_replicate_flatten _ 3 _ _ _ (by simp [rgbBytes]) hc he]

end Sys2Proof.Machine
end

