-- ==== Sys2Proof/Laws/PerInstr.lean ====
section
/-! SUPPORT. The family of per-instruction statements: each command decodes from its own word and is well formed. -/

namespace Sys2Proof.Laws.EncodeDecodes

/-- Read as a word of the opcode table a command's word is that command, and the fields of the word are legal
(30_encoding.md R59, R61, R62). -/
def Statement (i : Instr) : Prop :=
  decodeTableWord 32 (encode i).toNat = some i ∧ (cmdFields (encode i)).wellFormed = true
    ∧ i.wellFormed = true

theorem nop : Statement .nop := ⟨rfl, rfl, rfl⟩
theorem matchPixel : Statement .matchPixel := ⟨rfl, rfl, rfl⟩
theorem pack : Statement .pack := ⟨rfl, rfl, rfl⟩
theorem unpack : Statement .unpack := ⟨rfl, rfl, rfl⟩
theorem encode : Statement .encode := ⟨rfl, rfl, rfl⟩
theorem sheet : Statement .sheet := ⟨rfl, rfl, rfl⟩
theorem xform : Statement .xform := ⟨rfl, rfl, rfl⟩
theorem bitrev : Statement .bitrev := ⟨rfl, rfl, rfl⟩
theorem deint : Statement .deint := ⟨rfl, rfl, rfl⟩
theorem decode : Statement .decode := ⟨rfl, rfl, rfl⟩
theorem pallook : Statement .pallook := ⟨rfl, rfl, rfl⟩
theorem pixidx : Statement .pixidx := ⟨rfl, rfl, rfl⟩

end Sys2Proof.Laws.EncodeDecodes
end

