-- ==== Sys2Proof/Laws/Steps.lean ====
section
/-! SUPPORT. What one step is, by whose turn it is, and the shape all twelve meanings share. -/

namespace Sys2Proof.Machine

/-! ## Whose turn it is -/

/-- The engine's turn, scheduled or because the schedule is spent. -/
theorem step_of_engine {s : State} (h : s.turns = [] ∨ s.turns.head? = some .engine) :
    step s = engineStep { s with turns := s.turns.tail } := by
  unfold step runTurn
  rcases h with h | h
  · rw [h]
    cases s
    simp_all
  · cases ht : s.turns with
    | nil => simp [ht] at h
    | cons a b =>
      simp only [ht, List.head?_cons, Option.some.injEq] at h
      subst h
      rfl

/-- The host's turn. -/
theorem step_of_host {s : State} {a : HostAccess} {rest : List Turn} (h : s.turns = .host a :: rest) :
    step s = hostAccess a { s with turns := rest } := by
  unfold step runTurn
  rw [h]
  rfl

/-- A host write to a legal register offset. -/
theorem step_of_regWrite {s : State} {off : Nat} {v : Word} {rest : List Turn}
    (h : s.turns = .host (.write .reg 4 off v) :: rest) (h4 : off % 4 = 0) (hlt : off < 4096) :
    step s = .next (regWrite (regAt off) v { s with turns := rest }) := by
  have hok : regAccessOk 4 off = true := by simp [regAccessOk, h4, hlt]
  simp [step_of_host h, hostAccess, accessFault, hok, accessEffect]

/-- A host read of a legal register offset. -/
theorem step_of_regRead {s : State} {off : Nat} {rest : List Turn}
    (h : s.turns = .host (.read .reg 4 off) :: rest) (h4 : off % 4 = 0) (hlt : off < 4096) :
    step s = .next { s with turns := rest, readData := regRead (regAt off) { s with turns := rest } } := by
  have hok : regAccessOk 4 off = true := by simp [regAccessOk, h4, hlt]
  rw [step_of_host h, hostAccess]
  simp only [accessFault, hok]
  rfl

/-- Turns of the schedule are not touched by a register write. -/
@[simp] theorem regWrite_turns (r : Reg) (v : Word) (s : State) : (regWrite r v s).turns = s.turns := by
  rcases regWrite_cases r v s with ⟨_, e⟩ | ⟨_, _, e⟩ | ⟨hk, e⟩ | ⟨hk, _, e⟩ <;> rw [e]
  · rfl
  all_goals cases r <;> simp only [regStore, issue, inkWrite] <;> (repeat' split) <;> rfl

/-! ## Legal accesses and the register map -/

/-- A legal access to the register space (R42). -/
theorem regAccessOk_iff {size off : Nat} :
    regAccessOk size off = true ↔ size = 4 ∧ off % 4 = 0 ∧ off < 4096 := decide_eq_true_iff

/-- A legal access to BUF (R42). -/
theorem bufAccessOk_iff {s : State} {size off : Nat} :
    bufAccessOk s size off = true
      ↔ (size = 1 ∨ size = 2 ∨ size = 4) ∧ off % size = 0 ∧ off + size ≤ s.bufSize := decide_eq_true_iff

/-- A host access to BUF is no fault exactly when nothing is pending and the access is legal (R42, R138). -/
theorem bufFault_eq_none {s : State} {size off : Nat} :
    bufFault s size off = none ↔ s.busy = false ∧ bufAccessOk s size off = true := by
  unfold bufFault
  cases s.busy <;> cases bufAccessOk s size off <;> simp

/-- The offsets of HWPAL (R33). -/
theorem regAt_hwpal (c : Fin Config.hwpalSize) : regAt (0x100 + 4 * c.val) = .hwpal c := by
  revert c
  decide

/-- The offsets of INKMAP (R34). -/
theorem regAt_inkmap (i : Fin Config.inkCount) : regAt (0x200 + 4 * i.val) = .inkmap i := by
  revert i
  decide

/-! ## The fields of a command word -/

theorem rsvOk_iff (f : CmdFields) : f.rsvOk = true ↔ f.rsv = 0 := by simp [CmdFields.rsvOk]

/-- OP and RSV as numbers (R59). -/
theorem cmdFields_toNat (w : Word) :
    (cmdFields w).op.toNat = w.toNat % 16 ∧ (cmdFields w).rsv.toNat = w.toNat / 16 := by
  constructor
  · simp [cmdFields, BitVec.extractLsb'_toNat]
  · simp only [cmdFields, BitVec.extractLsb'_toNat, Nat.shiftRight_eq_div_pow]
    omega

/-! ## The shape of a meaning -/

/-- Where no check of a command fails, it completes. -/
theorem command_of_pass {err : Option ErrorCode} (h : err = none) (res : ResultRegs) (bytes : List Byte)
    (s : State) : command err res bytes s = .next (complete res bytes s) := by
  rw [h]
  rfl

/-- A check that fails names a code other than 0. -/
theorem firstFailure_ne_none {l : List (Bool × ErrorCode)} (h : ∀ c ∈ l, c.2 ≠ .none) :
    firstFailure l ≠ some .none := fun hh => h _ (firstFailure_mem hh) rfl

/-- Every meaning is one completion step, whose checks read no byte of BUF (R69, R70). -/
theorem exec_eq_command (i : Instr) (s : State) : ∃ e r b, exec i s = command e r b s ∧ e ≠ some .none
    ∧ ∀ (m : Memory) (n : Nat), ∃ r' b', exec i { s with buf := m, powerOns := n }
        = command e r' b' { s with buf := m, powerOns := n } := by
  cases i with
  | nop => exact ⟨none, s.res, [], rfl, by simp, fun m n => ⟨s.res, [], rfl⟩⟩
  | bitrev =>
    exact ⟨none, { s.res with result := (rev8 (field s.opr.arg 0 8)).setWidth 32 }, [], rfl, by simp,
      fun m n => ⟨_, [], rfl⟩⟩
  | matchPixel => exact ⟨_, _, _, rfl, firstFailure_ne_none (by simp), fun m n => ⟨_, _, rfl⟩⟩
  | pack => exact ⟨_, _, _, rfl, firstFailure_ne_none (by simp), fun m n => ⟨_, _, rfl⟩⟩
  | unpack => exact ⟨_, _, _, rfl, firstFailure_ne_none (by simp), fun m n => ⟨_, _, rfl⟩⟩
  | encode => exact ⟨_, _, _, rfl, firstFailure_ne_none (by simp), fun m n => ⟨_, _, rfl⟩⟩
  | sheet => exact ⟨_, _, _, rfl, firstFailure_ne_none (by simp), fun m n => ⟨_, _, rfl⟩⟩
  | xform => exact ⟨_, _, _, rfl, firstFailure_ne_none (by simp), fun m n => ⟨_, _, rfl⟩⟩
  | deint => exact ⟨_, _, _, rfl, firstFailure_ne_none (by simp), fun m n => ⟨_, _, rfl⟩⟩
  | decode => exact ⟨_, _, _, rfl, firstFailure_ne_none (by simp), fun m n => ⟨_, _, rfl⟩⟩
  | pallook => exact ⟨_, _, _, rfl, firstFailure_ne_none (by simp), fun m n => ⟨_, _, rfl⟩⟩
  | pixidx => exact ⟨_, _, _, rfl, firstFailure_ne_none (by simp), fun m n => ⟨_, _, rfl⟩⟩

/-- Where the BAD_ADDR check stands among the checks, the output of a command that passes lies in BUF. -/
theorem command_firstFailure_cases {l : List (Bool × ErrorCode)} {r : ResultRegs} {b : List Byte} {s t : State}
    {n m : Nat} (hn : ∀ c ∈ l, c.2 ≠ .none) (hl : (s.rangesBad n m, .badAddr) ∈ l) (hb : b.length = m)
    (hc : command (firstFailure l) r b s = .next t) :
    (∃ e, e ≠ .none ∧ t = errorEntry e s)
    ∨ ∃ r b, t = complete r b s ∧ (b.length = 0 ∨ s.dstAddr + b.length ≤ s.bufSize) := by
  rcases command_cases hc with ⟨e, he, rfl⟩ | ⟨hf, rfl⟩
  · exact .inl ⟨e, fun h => firstFailure_ne_none hn (by rw [he, h]), rfl⟩
  · refine .inr ⟨r, b, rfl, ?_⟩
    rw [hb]
    exact (rangesBad_eq_false.mp (firstFailure_eq_none.mp hf _ hl)).2

/-- The same for a command that writes no byte of BUF. -/
theorem command_nil_cases {err : Option ErrorCode} {r : ResultRegs} {s t : State} (hn : err ≠ some .none)
    (hc : command err r [] s = .next t) :
    (∃ e, e ≠ .none ∧ t = errorEntry e s)
    ∨ ∃ r b, t = complete r b s ∧ (b.length = 0 ∨ s.dstAddr + b.length ≤ s.bufSize) := by
  rcases command_cases hc with ⟨e, he, rfl⟩ | ⟨_, rfl⟩
  · exact .inl ⟨e, fun h => hn (by rw [he, h]), rfl⟩
  · exact .inr ⟨r, [], rfl, .inl rfl⟩

/-- What a command can do: error entry with a code, or a completion whose output lies in BUF. -/
theorem exec_cases {i : Instr} {s t : State} (h : exec i s = .next t) :
    (∃ e, e ≠ .none ∧ t = errorEntry e s)
    ∨ ∃ r b, t = complete r b s ∧ (b.length = 0 ∨ s.dstAddr + b.length ≤ s.bufSize) := by
  cases i with
  | nop => exact command_nil_cases (err := none) (by simp) h
  | bitrev => exact command_nil_cases (err := none) (by simp) h
  | matchPixel => exact command_nil_cases (firstFailure_ne_none (by simp)) h
  | pallook => exact command_nil_cases (firstFailure_ne_none (by simp)) h
  | pixidx => exact command_nil_cases (firstFailure_ne_none (by simp)) h
  | pack =>
    exact command_firstFailure_cases (m := s.packedSize) (by simp) (by simp; rfl) (length_packBytes s) h
  | unpack =>
    exact command_firstFailure_cases (m := s.maskSize) (by simp) (by simp; rfl) (length_unpackBytes s) h
  | encode =>
    exact command_firstFailure_cases (m := s.packedSize) (by simp) (by simp; rfl)
      (length_encodeSprite s _ _) h
  | sheet =>
    exact command_firstFailure_cases (m := s.sheetSize) (by simp) (by simp; rfl) (length_sheetBytes s) h
  | xform =>
    exact command_firstFailure_cases (m := s.packedSize) (by simp) (by simp; rfl) (length_xformBytes s) h
  | deint =>
    exact command_firstFailure_cases (m := Config.screenBytes) (by simp) (by simp; rfl)
      (by simp; rfl) h
  | decode =>
    exact command_firstFailure_cases (m := s.decodeSize) (by simp) (by simp; rfl) (length_decodeBytes s) h

/-! ## Host data -/

/-- A little-endian word as a number (R43). -/
theorem leWord_toNat {l : List Byte} (h : l.length ≤ 4) :
    (leWord l).toNat = Nat.ofDigits 256 (l.map BitVec.toNat) ∧ (leWord l).toNat < 256 ^ l.length := by
  induction l with
  | nil => simp [leWord]
  | cons b l ih =>
    obtain ⟨h1, h2⟩ := ih (by simp at h; omega)
    have hpow : 256 ^ l.length ≤ 256 ^ 3 := Nat.pow_le_pow_right (by omega) (by simp at h; omega)
    have hb := b.isLt
    have hshift : (leWord l <<< 8).toNat = 256 * (leWord l).toNat := by
      simp only [BitVec.toNat_shiftLeft, Nat.shiftLeft_eq]
      omega
    have hlow : (b.setWidth 32).toNat = b.toNat := by
      simp only [BitVec.toNat_setWidth]
      omega
    have key : (leWord (b :: l)).toNat = b.toNat + 256 * (leWord l).toNat := by
      rw [show leWord (b :: l) = b.setWidth 32 ||| (leWord l <<< 8) from rfl, BitVec.toNat_or, hshift, hlow,
        show 256 * (leWord l).toNat = (leWord l).toNat <<< 8 by rw [Nat.shiftLeft_eq]; omega,
        Nat.or_comm, ← Nat.shiftLeft_add_eq_or_of_lt hb, Nat.shiftLeft_eq]
      omega
    exact ⟨by rw [key, h1, List.map_cons, Nat.ofDigits_cons], by rw [key, List.length_cons, pow_succ]; omega⟩

/-! ## Bits of a transformed byte, and the number of tiles -/

/-- Bit `7 - k` of a byte after the mirror step: bit `k` where the bits are reversed (R111). -/
theorem mirrorByte_bit (f : TransformFlags) (b : Byte) (k : Nat) (hk : k < 8) :
    (mirrorByte f b).getLsbD (7 - k) = b.getLsbD (if f.mirror || f.mirrorAlign then k else 7 - k) := by
  unfold mirrorByte
  split
  · rw [rev8_bit _ _ (by omega), show 7 - (7 - k) = k by omega]
  · rfl

/-- The tile count is the only number that says which tiles fit (R89). -/
theorem tileCount_unique {g o sz gap n : Nat} (hs : 0 < sz) (h : ∀ c, c < n ↔ o + c * (sz + gap) + sz ≤ g) :
    tileCount g o sz gap = n := by
  have key : ∀ c, c < tileCount g o sz gap ↔ c < n := fun c => by rw [lt_tileCount_iff hs, h]
  have h1 := key n
  have h2 := key (tileCount g o sz gap)
  omega

end Sys2Proof.Machine
end

