-- ==== Sys2Proof/Machine/Script.lean ====
section
/-! DEFINITION. The host-script notation of 30_encoding.md R63, each form as the turns it stands for. -/

namespace Sys2Proof.Machine

/-- The offset of a register (R17). The HWPAL window without an entry and the reserved part stand for their first
offset. -/
def regOffset : Reg → Nat
  | .hwpal c => 0x100 + 4 * c.val
  | .hwpalHole => 0x16C
  | .inkmap i => 0x200 + 4 * i.val
  | .reserved => 0x078
  | r => ((regTable.find? (fun e => e.2 == r)).map Prod.fst).getD 0

/-- `WR <REG>, <v32>` (R63). -/
def wr (r : Reg) (v : Word) : List Turn := [.host (.write .reg 4 (regOffset r) v)]

/-- `RD <REG>` (R63). -/
def rd (r : Reg) : List Turn := [.host (.read .reg 4 (regOffset r))]

/-- `BW <off>, <b0>, <b1>, ...` (R63). -/
def bw (off : Nat) : List Byte → List Turn
  | [] => []
  | b :: bs => .host (.write .buf 1 off (b.setWidth 32)) :: bw (off + 1) bs

/-- `BR <off>, <n>` (R63). -/
def br (off n : Nat) : List Turn := (List.range n).map (fun k => .host (.read .buf 1 (off + k)))

/-- `CMD <MNEMONIC>`, for the word of the command (R63). -/
def cmd (word : Word) : List Turn := wr .cmd word

/-- `WAIT` (R63): the engine moves, and the read of STATUS that follows finds BUSY = 0 (R54, R141). -/
def wait : List Turn := .engine :: rd .status

/-- `RUN <MNEMONIC>` (R63). -/
def runCmd (word : Word) : List Turn := cmd word ++ wait

/-- `CLR` (R63). -/
def clr : List Turn := wr .status 0xE

/-- `SETRGB <REG>, r, g, b` (R63). -/
def setRgb (r : Reg) (red green blue : Byte) : List Turn := wr r (rgbWord { r := red, g := green, b := blue })

end Sys2Proof.Machine
end

