-- ==== Sys2Proof/Tests/Slice0.lean ====
section
/-! SUPPORT. The model's own tests. Expected values come from the spec: "V1", "K14" and the like are rows of
95_test_vectors.md. The second half shows, for each statement with hypotheses, that something meets them. -/

namespace Sys2Proof.Tests

open Sys2Proof.Machine Sys2Proof.Claims

/-! ## Helpers -/

/-- The state a step ends in; the reset state where it stops. -/
def after (o : Host.Outcome State Fault Refusal) : State :=
  match o with
  | .next s => s
  | _ => .reset

/-- After reset, with these operands and these bytes from BUF offset 0 on. -/
def start (o : OperandRegs) (bytes : List Byte) : State :=
  { State.reset with opr := o, buf := (Memory.mk []).writeBlock 0 bytes }

/-- After reset, with these turns to come. -/
def sched (ts : List Turn) : State := { State.reset with turns := ts }

/-- The same with a pending command. -/
def busyWith (w : Word) (ts : List Turn) : State := { sched ts with pending := some w }

/-- The same with a recorded error. -/
def failing (e : ErrorCode) (ts : List Turn) : State :=
  { sched ts with status := { done := false, err := true, ovr := false, ecode := e } }

/-- A sprite of `w` by `h` pixels, from offset `a` to offset `b`. -/
def spr (a b : Word) (w h : Half) : OperandRegs :=
  { OperandRegs.reset with src := a, dst := b, sprW := w, sprH := h }

/-- The same on a grid of `gw` by `gh` pixels. -/
def onGrid (o : OperandRegs) (gw gh : Half) : OperandRegs := { o with gridW := gw, gridH := gh }

/-- A DECODE of `n` scanlines in mode `m`. -/
def screen (a b : Word) (m : BitVec 2) (d : Bool) (n : Half) : OperandRegs :=
  { OperandRegs.reset with src := a, dst := b, mode := { mode := m, deint := d }, lines := n }

/-- STATUS of the state a command ends in. -/
def statusAfter (i : Instr) (s : State) : Word := (after (exec i s)).statusWord

/-- The sheet of program P6, 16 by 8 pixels in tiles of 8 by 8, its output at `b` and its first tile in column `x`. -/
def sheet (b : Word) (x : Half) : State := start { onGrid (spr 0 b 8 8) 16 8 with offX := x } []

/-- The ten pixels of section 2.4: K Wh K K Wh Wh Wh Wh K K. -/
def tenPixels : List Byte :=
  [0, 0, 0, 255, 255, 255, 0, 0, 0, 0, 0, 0, 255, 255, 255, 255, 255, 255, 255, 255, 255, 255, 255, 255]
    ++ [0, 0, 0, 0, 0, 0]

/-! ## WellFormed: an ill-formed term for each check -/

theorem test_wf_op : ({ op := 0xC, rsv := 0 } : CmdFields).opOk = false := by decide
theorem test_wf_rsv : ({ op := 0, rsv := 1 } : CmdFields).rsvOk = false := by decide
theorem test_wf_word : ({ op := 0xF, rsv := 0 } : CmdFields).wellFormed = false := by decide
theorem test_wf_legal : ({ op := 0xB, rsv := 0 } : CmdFields).wellFormed = true := by decide

/-! ## Decode: each word written out from R59 and R61, RSV in bits 31..4 and OP in bits 3..0 -/

theorem test_decode_nop : decode 0b0000000000000000000000000000_0000 = .ok .nop := rfl
theorem test_decode_match : decode 0b0000000000000000000000000000_0001 = .ok .matchPixel := rfl
theorem test_decode_pack : decode 0b0000000000000000000000000000_0010 = .ok .pack := rfl
theorem test_decode_unpack : decode 0b0000000000000000000000000000_0011 = .ok .unpack := rfl
theorem test_decode_encode : decode 0b0000000000000000000000000000_0100 = .ok .encode := rfl
theorem test_decode_sheet : decode 0b0000000000000000000000000000_0101 = .ok .sheet := rfl
theorem test_decode_xform : decode 0b0000000000000000000000000000_0110 = .ok .xform := rfl
theorem test_decode_bitrev : decode 0b0000000000000000000000000000_0111 = .ok .bitrev := rfl
theorem test_decode_deint : decode 0b0000000000000000000000000000_1000 = .ok .deint := rfl
theorem test_decode_decode : decode 0b0000000000000000000000000000_1001 = .ok .decode := rfl
theorem test_decode_pallook : decode 0b0000000000000000000000000000_1010 = .ok .pallook := rfl
theorem test_decode_pixidx : decode 0b0000000000000000000000000000_1011 = .ok .pixidx := rfl
theorem test_decode_reserved_op : decode 0b0000000000000000000000000000_1100 = .error .reservedOp := rfl
theorem test_decode_reserved_bits : decode 0b1000000000000000000000000000_0000 = .error .reservedBits := rfl
theorem test_table_word : decodeTableWord 32 0x9 = some .decode := rfl

/-! ## The fetch the host uses -/

theorem test_fetch_runs : step (State.reset.withFetchWord 32 0x0) = exec .nop (accept 0x0 State.reset) := rfl
theorem test_fetch_illegal : (after (step (State.reset.withFetchWord 32 0xC))).statusWord = 0x106 := by decide

/-! ## The commands -/

/-- V1. -/
theorem test_nop : statusAfter .nop State.reset = 0x2 := by decide
/-- M2. -/
theorem test_match_over : (after (exec .matchPixel (start OperandRegs.reset [9, 0, 0]))).res.result = 1 := by decide
/-- M16. -/
theorem test_match_alpha : (after (exec .matchPixel
    (start { OperandRegs.reset with ch4 := true, flags := flagsOf 1 } [0, 0, 0, 253]))).res.result = 0 := by decide
/-- K14. -/
theorem test_pack_inverse : (after (exec .pack
    (start { spr 0 0x1000 10 1 with flags := flagsOf 1 } [1, 0, 1, 1, 0, 0, 0, 0, 1, 1]))).readBytes 0x1000 2
      = [0xB0, 0xFF] := by decide
/-- K19. -/
theorem test_pack_order : statusAfter .pack (start (spr 0xFFFFFFFF 0x1000 0 1) []) = 0x406 := by decide
/-- UP1. -/
theorem test_unpack : (after (exec .unpack (start (spr 0 0x1000 10 2) [0xB0, 0xFF, 0x5A, 0x00]))).readBytes 0x1000 20
    = [1, 0, 1, 1, 0, 0, 0, 0, 1, 1, 0, 1, 0, 1, 1, 0, 1, 0, 0, 0] := by decide
/-- N1. -/
theorem test_encode : (after (exec .encode (start (onGrid (spr 0 0x1000 10 1) 10 1) tenPixels))).readBytes 0x1000 2
    = [0x4F, 0x00] := by decide
/-- N5. -/
theorem test_encode_align : (after (exec .encode
    (start { onGrid (spr 0 0x1000 10 1) 10 1 with flags := flagsOf 5 } tenPixels))).readBytes 0x1000 2
      = [0xFF, 0x0D] := by decide
/-- The tile counts of section 2.5 with an offset and a gap. -/
theorem test_sheet_count : tileCount 320 4 16 2 = 17 ∧ tileCount 26 0 8 1 = 3 ∧ tileCount 7 0 8 0 = 0 := by decide
/-- The grid of section 2.4 cut into two tiles of five columns: 01001 and 11100, by R82. -/
theorem test_sheet : (after (exec .sheet (start (onGrid (spr 0 0x1000 5 1) 10 1) tenPixels))).readBytes 0x1000 2
    = [0x48, 0xE0] := by decide
/-- Section 2.10, second input, FLAGS = 0xC. -/
theorem test_xform : (after (exec .xform (start { spr 0 0x200 12 3 with flags := flagsOf 0xC }
    [0xAB, 0xC0, 0x12, 0x30, 0xFF, 0xF0]))).readBytes 0x200 6 = [0x0F, 0xFF, 0x0C, 0x48, 0x03, 0xD5] := by decide
/-- P5, in place. -/
theorem test_xform_in_place : (after (exec .xform (start { spr 0 0 16 2 with flags := flagsOf 0xC }
    [0x80, 0x01, 0xF0, 0x00]))).readBytes 0 4 = [0x00, 0x0F, 0x80, 0x01] := by decide
/-- Section 2.11. -/
theorem test_bitrev : (after (exec .bitrev (start { OperandRegs.reset with arg := 0x12345601 } []))).res.result
    = 0x80 := by decide
/-- Section 2.9: the marker of line 19, by its output offset. -/
theorem test_deint_map : bankedLine 19 + 5 = 6309 ∧ deintFrom 1525 = 6309 ∧ deintTo 6309 = 1525
    ∧ deintFrom 16048 = 4048 := by decide
/-- Section 2.9. -/
theorem test_deint_overlap : statusAfter .deint (start (spr 0 0x2000 0 0) []) = 0x606 := by decide
/-- DC3: index 5 doubled, with HWPAL[5] red 0x55. -/
theorem test_decode_byte : decodeByte { start (screen 0 0x1000 0 false 1) [] with
    hwpal := State.reset.hwpal.set 5 { v := true, rgb := { r := 0x55, g := 0, b := 0 } } } 0xB0
      = [0x55, 0, 0, 0x55, 0, 0, 0, 0, 0, 0, 0, 0] := by decide
/-- DC5. -/
theorem test_decode_mode : statusAfter .decode (start (screen 0 0x1000 3 false 0) []) = 0x206 := by decide
/-- Section 2.7, ARG = 1 with HWPAL[1] red. -/
theorem test_pallook : (after (exec .pallook { start { OperandRegs.reset with arg := 1 } [] with
    hwpal := State.reset.hwpal.set 1 { v := true, rgb := { r := 0xFF, g := 0, b := 0 } } })).res.result
      = 0x01FF0000 := by decide
/-- Section 2.7, ARG = 16. -/
theorem test_pallook_range : statusAfter .pallook (start { OperandRegs.reset with arg := 16 } []) = 0x306 := by decide
/-- Section 2.6, byte 1B in mode 1. -/
theorem test_pixidx_mode1 : packIndices 1 0x1B = 0x3202 := by decide
/-- Section 2.6, byte B0 in mode 0. -/
theorem test_pixidx_mode0 : packIndices 0 0xB0 = 0x45 := by decide

/-! ## The host's registers -/

/-- RG4. -/
theorem test_hwpal_reserved : regRead (regAt 0x114) (regWrite (regAt 0x114) 0xFFFFFFFF State.reset) = 0x80FFFFFF := by
  decide
/-- RG5. -/
theorem test_inkmap_legal : regRead (regAt 0x208) (regWrite (regAt 0x208) 0xFFFFFF1A State.reset) = 0x8000001A := by
  decide
/-- RG6. -/
theorem test_inkmap_range : (regWrite (regAt 0x208) 0x1B State.reset).statusWord = 0x704 := by decide
/-- RG7. -/
theorem test_pal_window : (regWrite (regAt 0x16C) 0x5 State.reset).statusWord = 0x804 := by decide
/-- V6 and V7. -/
theorem test_reject : (regWrite .cmd 0 { failing .badOp [] with status :=
    { done := true, err := true, ovr := false, ecode := .badOp } }).statusWord = 0x10E := by decide
/-- V11. -/
theorem test_status_busy : (regWrite .status 0xE (busyWith 7 [])).statusWord = 0x1 := by decide
/-- The notation of R63 names the offsets of R17. -/
theorem test_script : wr (.inkmap 3) 5 = [.host (.write .reg 4 0x20C 5)] ∧ rd .status = [.host (.read .reg 4 0x00C)]
    ∧ runCmd 7 = [.host (.write .reg 4 0x008 7), .engine, .host (.read .reg 4 0x00C)] := by decide

/-! ## Witnesses: the hypotheses of each statement can be met -/

/-- A command answers the state `after` reads from its answer. -/
theorem exec_after (i : Instr) (s : State) : exec i s = .next (after (exec i s)) := by
  obtain ⟨e, r, b, h, -⟩ := exec_eq_command i s
  rw [h]
  cases e <;> rfl

/-- An illegal word by its OP, and one by its RSV. -/
theorem witness_IllegalWordFailsBadOp :
    ((busyWith 0xC [.engine]).pending = some 0xC ∧ (busyWith 0xC [.engine]).turns = .engine :: []
      ∧ 12 ≤ (0xC : Word).toNat % 16)
    ∧ ((busyWith 0x10 [.engine]).pending = some 0x10 ∧ (busyWith 0x10 [.engine]).turns = .engine :: []
      ∧ (0x10 : Word).toNat / 16 ≠ 0) :=
  ⟨⟨rfl, rfl, by decide⟩, ⟨rfl, rfl, by decide⟩⟩

theorem witness_StepRunsPendingCommand : (busyWith 0xB [.engine]).pending = some 0xB ∧ decode 0xB = .ok .pixidx
    ∧ Instr.pixidx.wellFormed = true ∧ engineNext (busyWith 0xB [.engine]) := ⟨rfl, rfl, rfl, .inr rfl⟩

theorem witness_IdleEngineChangesNothing : (sched [.engine]).pending = none ∧ engineNext (sched [.engine]) :=
  ⟨rfl, .inr rfl⟩

theorem witness_CmdWriteHasThreeOutcomes :
    (writesReg (busyWith 1 (wr .cmd 2)) 0x008 2 [] ∧ (busyWith 1 (wr .cmd 2)).busy = true)
    ∧ (writesReg (failing .badOp (wr .cmd 2)) 0x008 2 [] ∧ (failing .badOp (wr .cmd 2)).busy = false
      ∧ (failing .badOp (wr .cmd 2)).status.err = true)
    ∧ (writesReg (sched (wr .cmd 2)) 0x008 2 [] ∧ (sched (wr .cmd 2)).busy = false
      ∧ (sched (wr .cmd 2)).status.err = false) := ⟨⟨rfl, rfl⟩, ⟨rfl, rfl, rfl⟩, ⟨rfl, rfl, rfl⟩⟩

/-- The ends of each range of offsets; no offset is in two clauses. -/
theorem witness_RegisterWritesWhileBusy :
    (∀ off ∈ [0x014, 0x060, 0x100, 0x23C], regOffsetOk off ∧ takesWritesWhenIdle off ∧ ¬ ignoresWrites off)
    ∧ (∀ off ∈ [0x000, 0x004, 0x064, 0x0FC, 0x240, 0xFFC], regOffsetOk off ∧ ignoresWrites off
      ∧ ¬ takesWritesWhenIdle off)
    ∧ (∀ off ∈ [0x00C, 0x010], regOffsetOk off ∧ ¬ ignoresWrites off ∧ ¬ takesWritesWhenIdle off)
    ∧ (∀ off, writesReg (busyWith 1 [.host (.write .reg 4 off 5)]) off 5 []
      ∧ (busyWith 1 [.host (.write .reg 4 off 5)]).busy = true) := by
  refine ⟨?_, ?_, ?_, fun off => ⟨rfl, rfl⟩⟩ <;>
    (unfold regOffsetOk takesWritesWhenIdle ignoresWrites; decide)

/-- The ends of each range of offsets, with the largest legal CODE. -/
theorem witness_RegisterWriteReadsBack :
    (∀ off ∈ [0x010, 0x060, 0x100, 0x168, 0x200, 0x23C], off % 4 = 0
      ∧ ((0x010 ≤ off ∧ off ≤ 0x060) ∨ (0x100 ≤ off ∧ off ≤ 0x168) ∨ (0x200 ≤ off ∧ off ≤ 0x23C)))
    ∧ (0xFFFFFF1A : Word).toNat % 32 ≤ 26
    ∧ (∀ off, (sched [.host (.write .reg 4 off 5), .host (.read .reg 4 off)]).busy = false
      ∧ (sched [.host (.write .reg 4 off 5), .host (.read .reg 4 off)]).turns
        = .host (.write .reg 4 off 5) :: .host (.read .reg 4 off) :: [])
    ∧ regOffsetOk 0 ∧ regOffsetOk 0xFFC := by
  refine ⟨by decide, by decide, fun off => ⟨rfl, rfl⟩, ?_, ?_⟩ <;> (unfold regOffsetOk; decide)

theorem witness_HostReadChangesNothing :
    accessAllowed (sched [.host (.read .reg 4 0xFFC), .host (.read .reg 4 0xFFC)]) .reg 4 0xFFC
    ∧ accessAllowed (sched [.host (.read .buf 2 0xFFFFE), .host (.read .buf 2 0xFFFFE)]) .buf 2 0xFFFFE := by
  unfold accessAllowed
  decide

/-- The last word, the last half word and the last byte of BUF. -/
theorem witness_BufWriteIsLittleEndian :
    ∀ p ∈ [(4, 0xFFFFC), (2, 0xFFFFE), (1, 0xFFFFF)], (p.1 = 1 ∨ p.1 = 2 ∨ p.1 = 4) ∧ p.2 % p.1 = 0
      ∧ p.2 + p.1 ≤ (sched [.host (.write .buf p.1 p.2 5)]).bufLast.toNat + 1
      ∧ (sched [.host (.write .buf p.1 p.2 5)]).busy = false
      ∧ (sched [.host (.write .buf p.1 p.2 5)]).turns = .host (.write .buf p.1 p.2 5) :: [] := by decide

theorem witness_BufReadIsLittleEndian :
    ∀ p ∈ [(4, 0xFFFFC), (2, 0xFFFFE), (1, 0xFFFFF)], (p.1 = 1 ∨ p.1 = 2 ∨ p.1 = 4) ∧ p.2 % p.1 = 0
      ∧ p.2 + p.1 ≤ (sched [.host (.read .buf p.1 p.2)]).bufLast.toNat + 1
      ∧ (sched [.host (.read .buf p.1 p.2)]).busy = false
      ∧ (sched [.host (.read .buf p.1 p.2)]).turns = .host (.read .buf p.1 p.2) :: [] := by decide

/-- A legal and an illegal access of each space. -/
theorem witness_OnlyIllegalAccessesAreBusErrors :
    (∀ a, (sched [.host a]).turns = .host a :: [] ∧ (sched [.host a]).busy = false)
    ∧ (after (step (sched [.host (.read .reg 4 0xFFC)]))).turns = []
    ∧ step (sched [.host (.write .reg 2 0x014 0)]) = .fault .hostBusError
    ∧ step (sched [.host (.read .reg 4 0x1000)]) = .fault .hostBusError
    ∧ step (sched [.host (.read .buf 4 0xFFFFE)]) = .fault .hostBusError
    ∧ step (sched [.host (.write .buf 1 0x100000 0)]) = .fault .hostBusError :=
  ⟨fun _ => ⟨rfl, rfl⟩, rfl, rfl, rfl, rfl, rfl⟩

theorem witness_BufAccessWhileBusyFaults : ∀ a ∈ [HostAccess.read .buf 4 0, HostAccess.write .buf 1 0x100000 7],
    (busyWith 1 [.host a]).busy = true ∧ (busyWith 1 [.host a]).turns = .host a :: [] := by decide

theorem witness_StatusWriteEndsErrorState :
    (failing .badGeom [.host (.write .reg 4 0x00C 4), .host (.write .reg 4 0x008 0)]).busy = false
    ∧ (4 : Word).getLsbD 2 = true
    ∧ (failing .badGeom [.host (.write .reg 4 0x00C 4), .host (.write .reg 4 0x008 0)]).turns
      = .host (.write .reg 4 0x00C 4) :: .host (.write .reg 4 0x008 0) :: [] := ⟨rfl, by decide, rfl⟩

/-- The ends of both ranges, with the least CODE that is out of range. -/
theorem witness_PaletteRangeErrors :
    (∀ off ∈ [0x200, 0x23C], off % 4 = 0 ∧ 0x200 ≤ off ∧ off ≤ 0x23C ∧ 26 < (27 : Word).toNat % 32)
    ∧ (∀ off ∈ [0x16C, 0x1FC], off % 4 = 0 ∧ 0x16C ≤ off ∧ off ≤ 0x1FC)
    ∧ (∀ off, writesReg (sched [.host (.write .reg 4 off 27)]) off 27 []
      ∧ (sched [.host (.write .reg 4 off 27)]).busy = false
      ∧ writesReg (busyWith 1 [.host (.write .reg 4 off 27)]) off 27 []
      ∧ (busyWith 1 [.host (.write .reg 4 off 27)]).busy = true) :=
  ⟨by decide, by decide, fun _ => ⟨rfl, rfl, rfl, rfl⟩⟩

/-- A step that keeps the error, one that clears it, and a reset. -/
theorem witness_ErrorStaysUntilCleared : ∀ ts ∈ [[Turn.engine], wr .status 4, [Turn.reset]],
    (failing .badOp ts).status.err = true
      ∧ (match step (failing .badOp ts) with | .next _ => true | _ => false) = true := by decide

theorem witness_NoOutputWhileError : ∀ ts ∈ [wr .cmd 0, [Turn.host (.write .buf 1 0 7)], [Turn.powerOn]],
    (failing .badOp ts).status.err = true ∧ (failing .badOp ts).busy = false
      ∧ (match step (failing .badOp ts) with | .next _ => true | _ => false) = true := by decide

theorem witness_ResetInOneStep : (busyWith 7 [.reset, .engine]).turns = .reset :: [.engine]
    ∧ (busyWith 7 [.powerOn, .engine]).turns = .powerOn :: [.engine] := ⟨rfl, rfl⟩

/-- Nothing pending, a legal word pending, an illegal word pending. -/
theorem witness_ResetKeepsBuf : (sched [.reset]).turns = .reset :: [] ∧ (sched [.reset]).pending = none
    ∧ (busyWith 2 [.reset]).pending = some 2 ∧ decode 2 = .ok .pack
    ∧ (busyWith 0xC [.reset]).pending = some 0xC ∧ decode 0xC = .error .reservedOp := ⟨rfl, rfl, rfl, rfl, rfl, rfl⟩

/-- Write ranges, each pending as above: a sprite of ten columns, its mask, DEINT, DECODE of one line in mode 2 and in
mode 3, NOP. -/
theorem witness_writesSpan :
    writesSpan (start (spr 0 0x1000 10 1) []) .pack 2 ∧ writesSpan (start (spr 0 0x1000 10 1) []) .unpack 10
    ∧ writesSpan (busyWith 8 []) .deint 16384 ∧ writesSpan (start (screen 0 0x1000 2 false 1) []) .decode 3840
    ∧ writesSpan (start (screen 0 0x1000 3 false 1) []) .decode 0 ∧ writesSpan (busyWith 0 []) .nop 0 :=
  ⟨rfl, rfl, rfl, rfl, rfl, rfl⟩

theorem witness_FailedCommandChangesOnlyStatus : State.reset.status.err = false
    ∧ exec .pack State.reset = .next (errorEntry .badGeom State.reset)
    ∧ (errorEntry .badGeom State.reset).status.err = true := ⟨rfl, rfl, rfl⟩

theorem witness_ValidationIgnoresBuf : ∃ t t', exec .nop State.reset = .next t
    ∧ exec .nop { State.reset with buf := { cells := [(0, 1)] }, powerOns := 1 } = .next t' := ⟨_, _, rfl, rfl⟩

theorem witness_PendingCommandIsStable : (busyWith 7 (wr .arg 2)).busy = true
    ∧ step (busyWith 7 (wr .arg 2)) = .next (setOverrun (busyWith 7 []))
    ∧ ¬ engineNext (busyWith 7 (wr .arg 2)) ∧ ¬ resetNext (busyWith 7 (wr .arg 2)) := by
  refine ⟨rfl, rfl, ?_, ?_⟩
  · unfold engineNext
    decide
  · unfold resetNext
    decide

/-- No width, no grid, a tile one column too far, LINES = 0, and LINES = 201 with DEINT. -/
theorem witness_GeometryErrors : ¬ sized (start (spr 0 0 0 1) [])
    ∧ ¬ (sized (start (onGrid (spr 0 0 1 1) 0 1) []) ∧ gridded (start (onGrid (spr 0 0 1 1) 0 1) []))
    ∧ ¬ tileInGrid (start (onGrid { spr 0 0 8 1 with orgX := 3 } 10 1) [])
    ∧ ((start (screen 0 0 2 false 0) []).opr.mode.mode ≠ 3 ∧ (start (screen 0 0 2 false 0) []).opr.lines = 0)
    ∧ ((start (screen 0 0 2 true 201) []).opr.mode.deint = true
      ∧ 200 < (start (screen 0 0 2 true 201) []).opr.lines.toNat) := by
  unfold sized gridded tileInGrid
  decide

/-- Two tiles fit across the sheet from column 0 and none from column 9 (S1, S4); one fits down. -/
theorem witness_tiles (b : Word) : tilesAcross (sheet b 0) 2 ∧ tilesAcross (sheet b 9) 0
    ∧ ∀ x, tilesDown (sheet b x) 1 := by
  refine ⟨fun cx => ?_, fun cx => ?_, fun x cy => ?_⟩
  · change cx < 2 ↔ 0 + cx * (8 + 0) + 8 ≤ 16
    omega
  · change cx < 0 ↔ 9 + cx * (8 + 0) + 8 ≤ 16
    omega
  · change cy < 1 ↔ 0 + cy * (8 + 0) + 8 ≤ 8
    omega

/-- The write range of a SHEET of two tiles, and of one with no tile. -/
theorem witness_writesSpan_sheet : writesSpan (sheet 0x1000 0) .sheet 16 ∧ writesSpan (sheet 0x1000 9) .sheet 0 :=
  ⟨.inr ⟨2, 1, (witness_tiles _).1, (witness_tiles _).2.2 0, rfl⟩,
    .inr ⟨0, 1, (witness_tiles _).2.1, (witness_tiles _).2.2 9, rfl⟩⟩

/-- Ranges that end one byte past BUF; the SHEET writes 16 bytes. -/
theorem witness_AddressErrors :
    ¬ inside (start (spr 0xFFFFE 0 0 0) []) 0xFFFFE 3
    ∧ (sized (start (spr 0xFFFF9 0 8 1) []) ∧ ¬ inside (start (spr 0xFFFF9 0 8 1) []) 0xFFFF9
        (maskSpan (start (spr 0xFFFF9 0 8 1) [])))
    ∧ (sized (start (spr 0 0xFFFF9 8 1) []) ∧ ¬ inside (start (spr 0 0xFFFF9 8 1) []) 0xFFFF9
        (maskSpan (start (spr 0 0xFFFF9 8 1) [])))
    ∧ (sized (start (spr 0 0x100000 8 1) []) ∧ ¬ inside (start (spr 0 0x100000 8 1) []) 0x100000
        (spriteSpan (start (spr 0 0x100000 8 1) [])))
    ∧ (tileInGrid (start (onGrid (spr 0 0x100000 8 1) 8 1) []) ∧ gridded (start (onGrid (spr 0 0x100000 8 1) 8 1) [])
      ∧ sized (start (onGrid (spr 0 0x100000 8 1) 8 1) []) ∧ ¬ inside (start (onGrid (spr 0 0x100000 8 1) 8 1) [])
        0x100000 (spriteSpan (start (onGrid (spr 0 0x100000 8 1) 8 1) [])))
    ∧ (sized (sheet 0xFFFF1 0) ∧ gridded (sheet 0xFFFF1 0)
      ∧ ¬ inside (sheet 0xFFFF1 0) 0xFFFF1 (2 * 1 * spriteSpan (sheet 0xFFFF1 0)))
    ∧ ¬ inside (start (spr 0xFC001 0 0 0) []) 0xFC001 16384
    ∧ ¬ inside (start (screen 0 0xFF101 2 false 1) []) 0xFF101 (gridSpan (start (screen 0 0xFF101 2 false 1) [])) := by
  unfold inside sized gridded tileInGrid maskSpan spriteSpan gridSpan gridOf
  decide

/-- Both ranges of a command are in BUF and overlap. -/
def both (s : State) (n m : Nat) : Prop :=
  inside s s.opr.src.toNat n ∧ inside s s.opr.dst.toNat m ∧ meet s.opr.src.toNat n s.opr.dst.toNat m

/-- Both ranges in BUF and one byte shared, for each size of range; the SHEET writes 16 bytes. -/
theorem witness_OverlapErrors :
    (sized (start (spr 0 15 8 2) []) ∧ both (start (spr 0 15 8 2) []) 16 2 ∧ maskSpan (start (spr 0 15 8 2) []) = 16
      ∧ spriteSpan (start (spr 0 15 8 2) []) = 2)
    ∧ both (start (spr 15 0 8 2) []) 2 16
    ∧ (both (start (spr 0x100 0x101 8 2) []) 2 2 ∧ (0x100 : Word).toNat ≠ (0x101 : Word).toNat)
    ∧ (both (start (onGrid (spr 0 29 10 1) 10 1) []) 30 2 ∧ tileInGrid (start (onGrid (spr 0 29 10 1) 10 1) []))
    ∧ (both (sheet 383 0) 384 16 ∧ sized (sheet 383 0) ∧ gridBytes (sheet 383 0) = 384)
    ∧ both (start (spr 0 0x3FFF 0 0) []) 16384 16384
    ∧ both (start (screen 0 0x20 2 false 1) []) 80 3840 := by
  unfold both inside meet sized tileInGrid maskSpan spriteSpan gridBytes channels
  refine ⟨?_, ?_, ?_, ?_, ?_, ?_, ?_⟩ <;> decide

theorem witness_ModeAndArgErrors : (start (screen 0 0 3 false 0) []).opr.mode.mode = 3
    ∧ 15 < (start { OperandRegs.reset with arg := 16 } []).opr.arg.toNat := by decide

/-- M20 and its neighbours: the pixel that ends where BUF ends, one that is on and one that is off. -/
theorem witness_MatchSamplesPixel :
    inside (start (spr 0xFFFFD 0 0 0) []) 0xFFFFD (channels (start (spr 0xFFFFD 0 0 0) []))
    ∧ pixelOn (start OperandRegs.reset [9, 0, 0]) 0 ∧ ¬ pixelOn (start OperandRegs.reset [8, 0, 0]) 0 := by
  unfold inside channels pixelOn near
  decide

/-- A row of ten pixels: column 9 is the last pixel and column 10 the first padding bit. -/
theorem witness_PackWritesRows : sized (start (spr 0 0x1000 10 1) [])
    ∧ addressable (start (spr 0 0x1000 10 1) []) 10 2 ∧ maskSpan (start (spr 0 0x1000 10 1) []) = 10
    ∧ spriteSpan (start (spr 0 0x1000 10 1) []) = 2 ∧ 8 * 1 + 1 < 10 ∧ 10 ≤ 8 * 1 + 2 := by
  unfold sized addressable inside meet maskSpan spriteSpan
  decide

theorem witness_UnpackWritesMask : sized (start (spr 0 0x1000 10 1) [])
    ∧ addressable (start (spr 0 0x1000 10 1) []) (spriteSpan (start (spr 0 0x1000 10 1) []))
        (maskSpan (start (spr 0 0x1000 10 1) [])) := by
  unfold sized addressable inside meet maskSpan spriteSpan
  decide

theorem witness_EncodeWritesSprite : encodeReady (start (onGrid (spr 0 0x1000 10 1) 10 1) []) := by
  unfold encodeReady sized gridded tileInGrid addressable inside meet gridBytes channels spriteSpan
  decide

/-- Two tiles, and no tile at all (S4). -/
theorem witness_SheetWritesTiles : sheetReady (sheet 0x1000 0) 2 1 ∧ sheetReady (sheet 0x1000 9) 0 1 := by
  unfold sheetReady sized gridded addressable inside meet gridBytes channels spriteSpan
  decide

/-- In place, and to another place. -/
theorem witness_XformPermutesBits : xformReady (start (spr 0x100 0x100 16 2) [])
    ∧ xformReady (start (spr 0x100 0x104 16 2) []) := by
  unfold xformReady sized inside meet spriteSpan
  decide

theorem witness_DeintWritesBankMap : addressable (start (spr 0 0x4000 0 0) []) 16384 16384 := by
  unfold addressable inside meet
  decide

/-- Each mode, with and without DEINT, at LINES = 1 and at LINES = 200 with DEINT; the last pixel of the largest grid;
and the palette of the reset state. -/
theorem witness_DecodeWritesGrid :
    (∀ o ∈ [screen 0 0x10000 0 false 1, screen 0 0x10000 1 false 1, screen 0 0x10000 2 true 200],
      decodeReady (start o []) ∧ (start o []).inkCodesLegal = true)
    ∧ 639 < (gridOf 2 200).1 ∧ 399 < (gridOf 2 200).2 := by
  unfold decodeReady addressable inside meet screenSpan gridSpan gridOf
  decide

/-- The last index, with its code 15: a hit when HWPAL[15] is defined, a miss at reset. -/
theorem witness_PallookLooksUpInk : (start { OperandRegs.reset with arg := 15 } []).opr.arg.toNat < 16
    ∧ State.reset.inkmap[15] = { v := true, code := 15 }
    ∧ ((State.reset.hwpal.set 15 { v := true, rgb := Rgb.black })[15]).v = true
    ∧ (State.reset.hwpal[15]).v = false := by decide

theorem witness_PixidxExtractsIndices : (start (screen 0 0 2 false 0) []).opr.mode.mode ≠ 3 := by decide

theorem witness_StepKeepsInvariant : (sched (wr .cmd 7)).Inv
    ∧ step (sched (wr .cmd 7)) = .next (accept 7 (sched [])) := ⟨by decide, rfl⟩

/-- A legal write, an idle engine turn, and an access R138 forbids. -/
theorem witness_LegalTurnsNeverStop : turnAllowed (sched (wr .cmd 7))
    ∧ step (sched (wr .cmd 7)) = .next (accept 7 (sched [])) ∧ turnAllowed (sched [])
    ∧ ¬ turnAllowed (busyWith 7 [.host (.read .buf 1 0)]) :=
  ⟨⟨rfl, rfl, by decide⟩, rfl, trivial, fun h => Bool.noConfusion (show true = false from h.1)⟩

/-- A 10 by 1 mask packed from 0 to 0x1000 and unpacked to 0x2000. -/
theorem witness_PackThenUnpackRestoresMask :
    let s := start (spr 0 0x1000 10 1) []
    ∃ t u, sized s ∧ addressable s (maskSpan s) (spriteSpan s) ∧ exec .pack s = .next t
      ∧ addressable { t with opr := { s.opr with src := s.opr.dst, dst := 0x2000 } } (spriteSpan s) (maskSpan s)
      ∧ exec .unpack { t with opr := { s.opr with src := s.opr.dst, dst := 0x2000 } } = .next u := by
  refine ⟨_, _, ?_, ?_, exec_after _ _, ?_, exec_after _ _⟩
  · unfold sized
    decide
  · unfold addressable inside meet maskSpan spriteSpan
    decide
  · unfold addressable inside meet maskSpan spriteSpan
    exact ⟨.inr (by decide), .inr (by decide), by decide⟩

theorem witness_InverseComplementsSprite :
    let s := start (onGrid (spr 0 0x1000 10 1) 10 1) []
    let f : TransformFlags := flagsOf 4
    ∃ t u, encodeReady s ∧ s.opr.ch4 = false
      ∧ exec .encode (withFlags s { f with inverse := false }) = .next t
      ∧ exec .encode (withFlags s { f with inverse := true }) = .next u :=
  ⟨_, _, witness_EncodeWritesSprite, rfl, exec_after _ _, exec_after _ _⟩

theorem witness_InverseComplementsSheet :
    let s := sheet 0x1000 0
    let f : TransformFlags := flagsOf 8
    ∃ t u, tilesAcross s 2 ∧ tilesDown s 1 ∧ sheetReady s 2 1 ∧ s.opr.ch4 = false
      ∧ exec .sheet (withFlags s { f with inverse := false }) = .next t
      ∧ exec .sheet (withFlags s { f with inverse := true }) = .next u :=
  ⟨_, _, (witness_tiles _).1, (witness_tiles _).2.2 0, witness_SheetWritesTiles.1, rfl,
    exec_after _ _, exec_after _ _⟩

/-- A sprite transformed from 0x100 to 0x200, and from there to 0x300. -/
theorem witness_TransformTwiceIsIdentity :
    let s := start { spr 0x100 0x200 16 2 with flags := flagsOf 0xC } []
    ∃ t u, xformReady s ∧ exec .xform s = .next t
      ∧ xformReady { t with opr := { s.opr with src := s.opr.dst, dst := 0x300 } }
      ∧ exec .xform { t with opr := { s.opr with src := s.opr.dst, dst := 0x300 } } = .next u := by
  refine ⟨_, _, ?_, exec_after _ _, ?_, exec_after _ _⟩
  · unfold xformReady sized inside meet spriteSpan
    decide
  · unfold xformReady sized inside meet spriteSpan
    exact ⟨by decide, .inr (by decide), .inr (by decide), .inr (by decide)⟩

theorem witness_AlignReversesMirrorRows :
    let s := start (spr 0x100 0x100 16 2) []
    let f : TransformFlags := flagsOf 8
    ∃ t u, xformReady s ∧ exec .xform (withFlags s { f with mirror := true, mirrorAlign := false }) = .next t
      ∧ exec .xform (withFlags s { f with mirrorAlign := true }) = .next u :=
  ⟨_, _, witness_XformPermutesBits.1, exec_after _ _, exec_after _ _⟩

theorem witness_DeintIsPermutation : ∃ t, addressable (start (spr 0 0x4000 0 0) []) 16384 16384
    ∧ exec .deint (start (spr 0 0x4000 0 0) []) = .next t :=
  ⟨_, witness_DeintWritesBankMap, exec_after _ _⟩

/-- Program P3: 20 lines of mode 2, banked at 0, de-interleaved at 0x4000. -/
theorem witness_DecodeBankedEqualsDeintThenDecode :
    let s := start (screen 0 0x10000 2 true 20) []
    ∃ t u v, s.opr.mode.deint = true ∧ decodeReady s ∧ exec .decode s = .next t
      ∧ addressable { s with opr := { s.opr with dst := 0x4000 } } 16384 16384
      ∧ exec .deint { s with opr := { s.opr with dst := 0x4000 } } = .next u
      ∧ decodeReady { u with opr := { s.opr with src := 0x4000, mode := { s.opr.mode with deint := false } } }
      ∧ exec .decode { u with opr := { s.opr with src := 0x4000, mode := { s.opr.mode with deint := false } } }
        = .next v := by
  refine ⟨_, _, _, rfl, ?_, exec_after _ _, ?_, exec_after _ _, ?_,
    exec_after _ _⟩
  · unfold decodeReady addressable inside meet screenSpan gridSpan gridOf
    decide
  · unfold addressable inside meet
    decide
  · unfold decodeReady addressable inside meet screenSpan gridSpan gridOf
    exact ⟨by decide, by decide, by decide, .inr (by decide), .inr (by decide), by decide⟩

/-- The ends of each range of offsets without a register, and of the register space. -/
theorem witness_FixedAndResultReads :
    (∀ off ∈ [0x000, 0x078, 0x0FC, 0x16C, 0x1FC, 0x240, 0xFFC], off % 4 = 0 ∧ off < 4096)
    ∧ ∀ off, (sched [.host (.read .reg 4 off)]).turns = .host (.read .reg 4 off) :: [] :=
  ⟨by decide, fun _ => rfl⟩

end Sys2Proof.Tests
end

section
/-! The rules about the register space that the statements on registers share: which offset names which register,
and how the words of R17 are put together. -/

namespace Sys2Proof.Proofs

open Sys2Proof.Machine Sys2Proof.Claims

/-! ## Offsets and registers -/

/-- The parts of the register space (R17): the named registers, HWPAL, the window behind it, INKMAP, and the rest. -/
theorem regOffset_cases {off : Nat} (h : regOffsetOk off) :
    (∃ k < 64, off = 4 * k) ∨ (∃ c : Fin Config.hwpalSize, off = 0x100 + 4 * c.val)
    ∨ (0x16C ≤ off ∧ off ≤ 0x1FC ∧ regAt off = .hwpalHole)
    ∨ (∃ i : Fin Config.inkCount, off = 0x200 + 4 * i.val) ∨ (0x240 ≤ off ∧ regAt off = .reserved) := by
  obtain ⟨h4, -⟩ := h
  by_cases named : off < 0x100
  · exact .inl ⟨off / 4, by omega, by omega⟩
  by_cases hwpal : off < 0x16C
  · have hc : (off - 0x100) / 4 < Config.hwpalSize := by unfold Config.hwpalSize; omega
    exact .inr (.inl ⟨⟨_, hc⟩, by simp only; omega⟩)
  by_cases hole : off < 0x200
  · exact .inr (.inr (.inl ⟨by omega, by omega, by simp only [regAt, if_neg named, if_neg hwpal, if_pos hole]⟩))
  by_cases ink : off < 0x240
  · have hi : (off - 0x200) / 4 < Config.inkCount := by unfold Config.inkCount; omega
    exact .inr (.inr (.inr (.inl ⟨⟨_, hi⟩, by simp only; omega⟩)))
  · exact .inr (.inr (.inr (.inr
      ⟨by omega, by simp only [regAt, if_neg named, if_neg hwpal, if_neg hole, if_neg ink]⟩)))

theorem regOffset_regAt_named : ∀ k < 64, regAt (4 * k) ≠ .reserved → regOffset (regAt (4 * k)) = 4 * k := by decide

/-- A register has one offset; only the reserved part and the window without an entry share theirs (R17). -/
theorem regOffset_regAt {off : Nat} (h : regOffsetOk off) (hres : regAt off ≠ .reserved)
    (hhole : regAt off ≠ .hwpalHole) : regOffset (regAt off) = off := by
  rcases regOffset_cases h with ⟨k, hk, rfl⟩ | ⟨c, rfl⟩ | ⟨-, -, e⟩ | ⟨i, rfl⟩ | ⟨-, e⟩
  · exact regOffset_regAt_named k hk hres
  · rw [regAt_hwpal]; rfl
  · exact absurd e hhole
  · rw [regAt_inkmap]; rfl
  · exact absurd e hres

/-- The offsets without a register name none (R17, R33). -/
theorem regAt_empty {off : Nat} (h : regOffsetOk off)
    (he : (0x078 ≤ off ∧ off ≤ 0x0FC) ∨ (0x16C ≤ off ∧ off ≤ 0x1FC) ∨ 0x240 ≤ off) :
    regAt off = .reserved ∨ regAt off = .hwpalHole := by
  rcases regOffset_cases h with ⟨k, hk, rfl⟩ | ⟨c, rfl⟩ | ⟨-, -, e⟩ | ⟨i, rfl⟩ | ⟨-, e⟩
  · have key : ∀ k < 64, 0x078 ≤ 4 * k → regAt (4 * k) = .reserved := by decide
    exact .inl (key k hk (by omega))
  · have := c.isLt; unfold Config.hwpalSize at this; omega
  · exact .inr e
  · have := i.isLt; unfold Config.inkCount at this; omega
  · exact .inl e

/-! ## Words put together from fields -/

/-- A field put on top of lower bits, as a number. -/
theorem or_place_toNat {n k : Nat} {w : Word} (x : BitVec n) (hw : w.toNat < 2 ^ k) (hk : n + k ≤ 32) :
    (w ||| place x k).toNat = w.toNat + 2 ^ k * x.toNat := by
  have hx : x.toNat * 2 ^ k < 2 ^ 32 := calc
    x.toNat * 2 ^ k < 2 ^ n * 2 ^ k := Nat.mul_lt_mul_of_pos_right x.isLt (Nat.two_pow_pos k)
    _ = 2 ^ (n + k) := (pow_add 2 n k).symm
    _ ≤ 2 ^ 32 := Nat.pow_le_pow_right (by omega) hk
  have hx' : x.toNat < 2 ^ 32 := x.isLt.trans_le (Nat.pow_le_pow_right (by omega) (by omega))
  rw [BitVec.toNat_or, place, BitVec.toNat_shiftLeft, BitVec.toNat_setWidth, Nat.mod_eq_of_lt hx', Nat.shiftLeft_eq,
    Nat.mod_eq_of_lt hx, Nat.or_comm, mul_pow_or hw]
  ring

/-- The same for a flag. -/
theorem or_placeBit_toNat {k : Nat} {w : Word} (b : Bool) (hw : w.toNat < 2 ^ k) (hk : k < 32) :
    (w ||| placeBit b k).toNat = w.toNat + 2 ^ k * b.toNat := by
  rw [placeBit, or_place_toNat _ hw (by omega), BitVec.toNat_ofBool]

theorem place_zero_toNat {n : Nat} (x : BitVec n) (hn : n ≤ 32) : (place x 0).toNat = x.toNat := by
  have := or_place_toNat (w := 0) (k := 0) x (by decide) (by omega)
  simpa using this

theorem placeBit_zero_toNat (b : Bool) : (placeBit b 0).toNat = b.toNat := by cases b <;> rfl

/-- A field taken out of a word and put back is the word under the field's mask. -/
theorem place_field (v : Word) (lo len : Nat) :
    place (field v lo len) lo = v &&& place (BitVec.allOnes len) lo := by
  refine word_ext fun i hi => ?_
  rw [BitVec.getLsbD_and, getLsbD_place, getLsbD_place, getLsbD_field, BitVec.getLsbD_allOnes]
  by_cases hlo : lo ≤ i
  · rw [Nat.add_sub_cancel' hlo, ← Bool.and_assoc, Bool.and_comm]
  · simp only [hlo, decide_false, Bool.and_false, Bool.false_and]

theorem field_setWidth (v : Word) (len : Nat) :
    (field v 0 len).setWidth 32 = v &&& place (BitVec.allOnes len) 0 := by
  rw [← place_field, place, BitVec.shiftLeft_zero]

/-- The same for a flag. -/
theorem placeBit_getLsbD (v : Word) {n : Nat} (hn : n < 32) :
    placeBit (v.getLsbD n) n = v &&& placeBit true n := by
  refine word_ext fun i _ => ?_
  rw [BitVec.getLsbD_and, getLsbD_placeBit _ _ _ hn, getLsbD_placeBit _ _ _ hn]
  by_cases h : i = n
  · simp only [h, decide_true, Bool.true_and, Bool.and_true]
  · simp only [h, decide_false, Bool.false_and, Bool.and_false]

end Sys2Proof.Proofs
end

section
/-! What a step can do to the state, said once per operation, and the invariants of 10_state.md R37 that every
step keeps. -/

namespace Sys2Proof.Proofs

open Sys2Proof.Machine Sys2Proof.Claims

/-! ## What a register write, a host access and the engine's turn can do -/

/-- An INKMAP write fails with INK_RANGE or stores a legal code (R34, R120). -/
theorem inkWrite_cases (i : Fin Config.inkCount) (v : Word) (s : State) :
    inkWrite i v s = registerError .inkRange s
    ∨ ((inkEntryOf v).code.toNat ≤ 26
        ∧ inkWrite i v s = { s with inkmap := s.inkmap.set i (inkEntryOf v) }) := by
  unfold inkWrite
  by_cases h : 26 < (inkEntryOf v).code.toNat
  · exact .inl (if_pos h)
  · exact .inr ⟨by omega, if_neg h⟩

/-- `t` is `s` with other enables, operands and palette entries, and its INKMAP codes are legal where those of `s`
are. -/
def configured (s t : State) : Prop :=
  t = { s with irqen := t.irqen, opr := t.opr, hwpal := t.hwpal, inkmap := t.inkmap }
    ∧ (s.inkCodesLegal = true → t.inkCodesLegal = true)

theorem inkCodesLegal_set {s : State} (h : s.inkCodesLegal = true) (i : Fin Config.inkCount) {e : InkEntry}
    (he : e.code.toNat ≤ 26) : ({ s with inkmap := s.inkmap.set i e } : State).inkCodesLegal = true := by
  simp only [State.inkCodesLegal, List.all_eq_true, decide_eq_true_eq, Vector.mem_toList_iff] at h ⊢
  intro x hx
  rcases Vector.mem_or_eq_of_mem_set hx with hx | rfl
  · exact h x hx
  · exact he

/-- A write that is not discarded issues a command, clears flags, enters an error or configures the block. -/
theorem regStore_cases (r : Reg) (v : Word) (s : State) :
    (r = .cmd ∧ regStore r v s = issue v s) ∨ (r = .status ∧ regStore r v s = statusWrite v s)
    ∨ (writeKind r = .whenIdle ∧ ∃ e, e ≠ .none ∧ regStore r v s = registerError e s)
    ∨ configured s (regStore r v s) := by
  cases r with
  | cmd => exact .inl ⟨rfl, rfl⟩
  | status => exact .inr (.inl ⟨rfl, rfl⟩)
  | hwpalHole => exact .inr (.inr (.inl ⟨rfl, .palRange, by simp, rfl⟩))
  | inkmap i =>
    rcases inkWrite_cases i v s with e | ⟨hcode, e⟩
    · exact .inr (.inr (.inl ⟨rfl, .inkRange, by simp, e⟩))
    · refine .inr (.inr (.inr ?_))
      rw [show regStore (.inkmap i) v s = inkWrite i v s from rfl, e]
      exact ⟨rfl, fun h => inkCodesLegal_set h i hcode⟩
  | _ => exact .inr (.inr (.inr ⟨rfl, id⟩))

/-- A host access that is no fault has its effect. -/
theorem hostAccess_next {a : HostAccess} {s t : State} (h : hostAccess a s = .next t) :
    accessFault a s = none ∧ t = accessEffect a s := by
  rcases hostAccess_cases a s with ⟨f, -, e⟩ | ⟨hok, e⟩ <;> rw [e] at h
  · cases h
  · exact ⟨hok, (Host.Outcome.next.inj h).symm⟩

/-- The engine rests, fails the pending command, or completes it with its output in BUF. -/
theorem engineStep_next {s t : State} (h : engineStep s = .next t) :
    t = s ∨ (∃ e, e ≠ .none ∧ t = errorEntry e s)
    ∨ ∃ r b, t = complete r b s ∧ (b.length = 0 ∨ s.dstAddr + b.length ≤ s.bufSize) := by
  rcases engineStep_cases s with ⟨-, e⟩ | ⟨v, i, -, -, e⟩ | ⟨v, d, -, -, e⟩ <;> rw [e] at h
  · exact .inl (Host.Outcome.next.inj h).symm
  · exact .inr (exec_cases h)
  · exact .inr (.inl ⟨.badOp, by simp, (Host.Outcome.next.inj h).symm⟩)

/-- A step is the engine's turn, or a host access, or a reset, on the schedule without the turn taken. -/
theorem step_next {s t : State} (h : step s = .next t) :
    engineStep { s with turns := s.turns.tail } = .next t
    ∨ (∃ a rest, s.turns = .host a :: rest ∧ hostAccess a { s with turns := rest } = .next t)
    ∨ (∃ rest, s.turns = .reset :: rest ∧ t = warmReset { s with turns := rest })
    ∨ (∃ rest, s.turns = .powerOn :: rest ∧ t = powerOn { s with turns := rest }) := by
  rcases step_cases s with ⟨hs, -⟩ | ⟨u, rest, hs, e⟩
  · exact .inl (step_of_engine (.inl hs) ▸ h)
  · rw [e] at h
    cases u with
    | engine => exact .inl (by rw [hs]; exact h)
    | host a => exact .inr (.inl ⟨a, rest, hs, h⟩)
    | reset => exact .inr (.inr (.inl ⟨rest, hs, (Host.Outcome.next.inj h).symm⟩))
    | powerOn => exact .inr (.inr (.inr ⟨rest, hs, (Host.Outcome.next.inj h).symm⟩))

/-! ## The invariants, operation by operation -/

/-- The invariants of STATUS and PENDING as propositions (R37). -/
theorem inv_iff {s : State} :
    s.Inv ↔ (s.busy = true → s.status.err = false ∧ s.status.done = false)
      ∧ (s.status.err = true ↔ s.status.ecode ≠ .none) ∧ s.inkCodesLegal = true ∧ s.bufLegal = true := by
  simp only [State.Inv, State.busyMeansNoError, State.codeMatchesError, State.busyMeansNotDone]
  cases s.busy <;> cases s.status.err <;> simp [and_left_comm]

/-- The code goes with the error through every error entry (R118, R122). -/
theorem raise_codeMatches {st : Status} {e : ErrorCode} (he : e ≠ .none) (h : st.err = true ↔ st.ecode ≠ .none) :
    (st.raise e).err = true ↔ (st.raise e).ecode ≠ .none := by
  rw [raise_err, raise_ecode]
  cases herr : st.err with
  | true => simpa using h.mp herr
  | false => simpa using he

theorem bufLegal_writeBlock {s t : State} {a : Nat} {bs : List Byte} (h : s.bufLegal = true)
    (hbuf : t.buf = s.buf.writeBlock a bs) (hlast : t.bufLast = s.bufLast)
    (hin : bs.length = 0 ∨ a + bs.length ≤ s.bufSize) : t.bufLegal = true := by
  simp only [State.bufLegal, Bool.and_eq_true, State.bufSize, hbuf, hlast] at h ⊢
  exact ⟨wf_writeBlock h.1 a bs, below_writeBlock h.2 a bs hin⟩

theorem setOverrun_inv {s : State} (h : s.Inv) : (setOverrun s).Inv := h

theorem accept_inv {v : Word} {s : State} (h : s.Inv) (herr : s.status.err = false) : (accept v s).Inv := by
  obtain ⟨-, hcode, hink, hbuf⟩ := inv_iff.mp h
  exact inv_iff.mpr ⟨fun _ => ⟨herr, rfl⟩, hcode, hink, hbuf⟩

theorem issue_inv {v : Word} {s : State} (h : s.Inv) : (issue v s).Inv := by
  rcases issue_cases v s with ⟨-, e⟩ | ⟨hidle, -, e⟩ | ⟨-, herr, e⟩ <;> rw [e]
  · exact setOverrun_inv h
  · obtain ⟨-, hcode, hink, hbuf⟩ := inv_iff.mp h
    exact inv_iff.mpr ⟨fun hbusy => absurd hbusy (Bool.eq_false_iff.mp hidle), hcode, hink, hbuf⟩
  · exact accept_inv h herr

/-- Clearing ERR clears ECODE with it (R22). -/
theorem statusWrite_inv {v : Word} {s : State} (h : s.Inv) : (statusWrite v s).Inv := by
  obtain ⟨hbusy, hcode, hink, hbuf⟩ := inv_iff.mp h
  refine inv_iff.mpr ⟨fun hb => ?_, ?_, hink, hbuf⟩
  · obtain ⟨herr, hdone⟩ := hbusy hb
    simp [herr, hdone]
  · rw [statusWrite_err, statusWrite_ecode]
    cases v.getLsbD 2 <;> simp [hcode]

theorem registerError_inv {e : ErrorCode} {s : State} (h : s.Inv) (hidle : s.busy = false) (he : e ≠ .none) :
    (registerError e s).Inv := by
  obtain ⟨-, hcode, hink, hbuf⟩ := inv_iff.mp h
  exact inv_iff.mpr
    ⟨fun hb => absurd hb (Bool.eq_false_iff.mp hidle), raise_codeMatches he hcode, hink, hbuf⟩

theorem configured_inv {s t : State} (h : s.Inv) (hc : configured s t) : t.Inv := by
  obtain ⟨hbusy, hcode, hink, hbuf⟩ := inv_iff.mp h
  obtain ⟨ht, hlegal⟩ := hc
  have hink' := hlegal hink
  rw [ht] at hink' ⊢
  exact inv_iff.mpr ⟨hbusy, hcode, hink', hbuf⟩

theorem regStore_inv {r : Reg} {v : Word} {s : State} (h : s.Inv)
    (hidle : writeKind r = .whenIdle → s.busy = false) : (regStore r v s).Inv := by
  rcases regStore_cases r v s with ⟨-, e⟩ | ⟨-, e⟩ | ⟨hk, c, hc, e⟩ | hc
  · exact e ▸ issue_inv h
  · exact e ▸ statusWrite_inv h
  · exact e ▸ registerError_inv h (hidle hk) hc
  · exact configured_inv h hc

theorem regWrite_inv {r : Reg} {v : Word} {s : State} (h : s.Inv) : (regWrite r v s).Inv := by
  rcases regWrite_cases r v s with ⟨-, e⟩ | ⟨-, -, e⟩ | ⟨hk, e⟩ | ⟨-, hidle, e⟩ <;> rw [e]
  · exact h
  · exact setOverrun_inv h
  · exact regStore_inv h (fun hk' => absurd (hk ▸ hk') (by simp))
  · exact regStore_inv h (fun _ => hidle)

theorem errorEntry_inv {e : ErrorCode} {s : State} (h : s.Inv) (he : e ≠ .none) : (errorEntry e s).Inv := by
  obtain ⟨-, hcode, hink, hbuf⟩ := inv_iff.mp h
  exact inv_iff.mpr ⟨fun hb => absurd hb (by simp [State.busy]), raise_codeMatches he hcode, hink, hbuf⟩

theorem complete_inv {r : ResultRegs} {b : List Byte} {s : State} (h : s.Inv)
    (hin : b.length = 0 ∨ s.dstAddr + b.length ≤ s.bufSize) : (complete r b s).Inv := by
  obtain ⟨-, hcode, hink, hbuf⟩ := inv_iff.mp h
  exact inv_iff.mpr ⟨fun hb => absurd hb (by simp [State.busy]), hcode, hink, bufLegal_writeBlock hbuf rfl rfl hin⟩

/-- A state whose registers are those of the reset state has the invariants where its BUF has its own. -/
theorem inv_of_resetRegisters {s : State} (hbuf : s.bufLegal = true) (hst : s.status = State.reset.status)
    (hp : s.pending = none) (hink : s.inkmap = State.reset.inkmap) : s.Inv := by
  refine inv_iff.mpr ⟨fun hb => absurd hb (by simp [State.busy, hp]), ?_, ?_, hbuf⟩
  · rw [hst]; decide
  · rw [State.inkCodesLegal, hink]; decide

/-- The bytes a reset abandons lie in BUF (R134). -/
theorem abandonedBytes_in_buf (s : State) :
    (abandonedBytes s).length = 0 ∨ s.dstAddr + (abandonedBytes s).length ≤ s.bufSize := by
  rw [abandonedBytes, List.length_map, List.length_range, abandonedSize]
  split
  · exact .inl rfl
  · split
    · omega
    · exact .inl rfl

theorem warmReset_inv {s : State} (h : s.Inv) : (warmReset s).Inv := by
  obtain ⟨-, -, -, hbuf⟩ := inv_iff.mp h
  exact inv_of_resetRegisters (bufLegal_writeBlock hbuf rfl rfl (abandonedBytes_in_buf s)) rfl rfl rfl

theorem powerOn_inv (s : State) : (powerOn s).Inv := inv_of_resetRegisters rfl rfl rfl rfl

/-! ## The invariants, turn by turn -/

theorem engineStep_inv {s t : State} (h : s.Inv) (hs : engineStep s = .next t) : t.Inv := by
  rcases engineStep_next hs with rfl | ⟨e, he, rfl⟩ | ⟨r, b, rfl, hin⟩
  · exact h
  · exact errorEntry_inv h he
  · exact complete_inv h hin

@[simp] theorem length_leBytes (v : Word) (size : Nat) : (leBytes v size).length = size := by simp [leBytes]

theorem hostAccess_inv {a : HostAccess} {s t : State} (h : s.Inv) (hs : hostAccess a s = .next t) : t.Inv := by
  obtain ⟨hok, rfl⟩ := hostAccess_next hs
  match a with
  | .read sp size off => exact h
  | .write .reg size off v => exact regWrite_inv h
  | .write .buf size off v =>
    obtain ⟨-, hlegal⟩ := bufFault_eq_none.mp hok
    obtain ⟨-, -, hin⟩ := bufAccessOk_iff.mp hlegal
    obtain ⟨hbusy, hcode, hink, hbuf⟩ := inv_iff.mp h
    exact inv_iff.mpr ⟨hbusy, hcode, hink, bufLegal_writeBlock hbuf rfl rfl (.inr (by simpa using hin))⟩

/-- The schedule is no part of the invariants. -/
theorem inv_of_turns {s : State} (h : s.Inv) (ts : List Turn) : ({ s with turns := ts } : State).Inv := h

/-- Settles O44, turn by turn: each operation a turn is made of keeps the invariants. -/
theorem stepKeepsInvariant : Obligations.StepKeepsInvariant := by
  unfold Obligations.StepKeepsInvariant
  intro s t h hs
  rcases step_next hs with he | ⟨a, rest, -, ha⟩ | ⟨rest, -, rfl⟩ | ⟨rest, -, rfl⟩
  · exact engineStep_inv (inv_of_turns h _) he
  · exact hostAccess_inv (inv_of_turns h rest) ha
  · exact warmReset_inv (inv_of_turns h rest)
  · exact powerOn_inv _

/-- Settles O43: the registers have their reset values and BUF holds no byte. -/
theorem invariantAtReset : Obligations.InvariantAtReset := inv_of_resetRegisters rfl rfl rfl rfl

/-! ## The error state (R22, R122) -/

/-- ERR is 1 and its code is that of `s` (R22). -/
def keepsError (s t : State) : Prop := t.status.err = true ∧ t.status.ecode = s.status.ecode

/-- A further error does not replace the first one's code (R122). -/
theorem raise_keepsError {st : Status} (h : st.err = true) (e : ErrorCode) :
    (st.raise e).err = true ∧ (st.raise e).ecode = st.ecode := ⟨rfl, if_pos h⟩

theorem issue_keepsError {s : State} (h : s.status.err = true) (v : Word) : keepsError s (issue v s) := by
  rcases issue_cases v s with ⟨-, e⟩ | ⟨-, -, e⟩ | ⟨-, herr, -⟩
  · exact e ▸ ⟨h, rfl⟩
  · exact e ▸ ⟨h, rfl⟩
  · simp [h] at herr

/-- Only a STATUS write with bit 2 set ends the error state (R123). -/
theorem regStore_keepsError {r : Reg} {v : Word} {s : State} (h : s.status.err = true) :
    keepsError s (regStore r v s) ∨ (r = .status ∧ v.getLsbD 2 = true) := by
  rcases regStore_cases r v s with ⟨-, e⟩ | ⟨hr, e⟩ | ⟨-, c, -, e⟩ | ⟨hc, -⟩
  · exact .inl (e ▸ issue_keepsError h v)
  · cases hv : v.getLsbD 2 with
    | true => exact .inr ⟨hr, rfl⟩
    | false => exact .inl (e ▸ ⟨by rw [statusWrite_err, h, hv]; rfl, by rw [statusWrite_ecode, hv]; rfl⟩)
  · exact .inl (e ▸ raise_keepsError h c)
  · exact .inl (hc ▸ ⟨h, rfl⟩)

theorem regWrite_keepsError {r : Reg} {v : Word} {s : State} (h : s.status.err = true) :
    keepsError s (regWrite r v s) ∨ (r = .status ∧ v.getLsbD 2 = true) := by
  rcases regWrite_cases r v s with ⟨-, e⟩ | ⟨-, -, e⟩ | ⟨-, e⟩ | ⟨-, -, e⟩ <;> rw [e]
  · exact .inl ⟨h, rfl⟩
  · exact .inl ⟨h, rfl⟩
  · exact regStore_keepsError h
  · exact regStore_keepsError h

theorem engineStep_keepsError {s t : State} (h : s.status.err = true) (hs : engineStep s = .next t) :
    keepsError s t := by
  rcases engineStep_next hs with rfl | ⟨e, -, rfl⟩ | ⟨r, b, rfl, -⟩
  · exact ⟨h, rfl⟩
  · exact raise_keepsError h e
  · exact ⟨h, rfl⟩

theorem hostAccess_keepsError {a : HostAccess} {s t : State} (h : s.status.err = true)
    (hs : hostAccess a s = .next t) :
    keepsError s t ∨ ∃ v, a = .write .reg 4 0x00C v ∧ v.getLsbD 2 = true := by
  obtain ⟨hok, rfl⟩ := hostAccess_next hs
  match a with
  | .read sp size off => exact .inl ⟨h, rfl⟩
  | .write .buf size off v => exact .inl ⟨h, rfl⟩
  | .write .reg size off v =>
    refine (regWrite_keepsError h).imp id fun ⟨hr, hv⟩ => ⟨v, ?_, hv⟩
    have hlegal : regAccessOk size off = true := by
      by_contra hbad
      simp [accessFault, hbad] at hok
    obtain ⟨rfl, h4, hlt⟩ := regAccessOk_iff.mp hlegal
    have hoff := regOffset_regAt ⟨h4, hlt⟩ (by simp [hr]) (by simp [hr])
    rw [hr] at hoff
    exact hoff ▸ rfl

/-- Settles O16, turn by turn. -/
theorem errorStaysUntilCleared : Obligations.ErrorStaysUntilCleared := by
  unfold Obligations.ErrorStaysUntilCleared
  intro s t h hs
  rcases step_next hs with he | ⟨a, rest, hturns, ha⟩ | ⟨rest, hturns, -⟩ | ⟨rest, hturns, -⟩
  · exact .inl (engineStep_keepsError (s := { s with turns := s.turns.tail }) h he)
  · rcases hostAccess_keepsError (s := { s with turns := rest }) h ha with hk | ⟨v, rfl, hv⟩
    · exact .inl hk
    · exact .inr (.inl ⟨v, rest, hturns, hv⟩)
  · exact .inr (.inr (.inl (by rw [hturns]; rfl)))
  · exact .inr (.inr (.inr (by rw [hturns]; rfl)))

end Sys2Proof.Proofs
end

section
/-! What the registers read: each field in its place, and after a write the bits the write defines. -/

namespace Sys2Proof.Proofs

open Sys2Proof.Machine Sys2Proof.Claims

/-! ## Register words as numbers (R17, R18) -/

theorem irqEnable_word_toNat (e : IrqEnable) :
    e.word.toNat = e.doneie.toNat + 2 * e.errie.toNat + 4 * e.ovrie.toNat := by
  have h0 := e.doneie.toNat_lt
  have h1 := e.errie.toNat_lt
  have w0 := placeBit_zero_toNat e.doneie
  have w1 := or_placeBit_toNat (k := 1) e.errie (w := placeBit e.doneie 0) (by omega) (by omega)
  rw [IrqEnable.word, or_placeBit_toNat (k := 2) _ (by omega) (by omega)]
  omega

/-- Four flags in bits 3..0, as STATUS and FLAGS hold them (R22, R28). -/
theorem fourFlags_toNat (b0 b1 b2 b3 : Bool) :
    (placeBit b0 0 ||| placeBit b1 1 ||| placeBit b2 2 ||| placeBit b3 3).toNat
      = b0.toNat + 2 * b1.toNat + 4 * b2.toNat + 8 * b3.toNat := by
  revert b0 b1 b2 b3
  decide

theorem modeReg_word_toNat (m : ModeReg) : m.word.toNat = m.mode.toNat + 16 * m.deint.toNat := by
  have hm := m.mode.isLt
  have w0 := place_zero_toNat m.mode (by omega)
  rw [ModeReg.word, or_placeBit_toNat (k := 4) _ (by omega) (by omega), w0]
  omega

theorem hwEntry_word_toNat (e : HwEntry) :
    e.word.toNat
      = 0x80000000 * e.v.toNat + 0x10000 * e.rgb.r.toNat + 0x100 * e.rgb.g.toNat + e.rgb.b.toNat := by
  have hr := e.rgb.r.isLt
  have hg := e.rgb.g.isLt
  have hb := e.rgb.b.isLt
  have w := rgbWord_toNat e.rgb
  rw [HwEntry.word, placeBit_top_or_toNat (by omega), w]
  omega

theorem inkEntry_word_toNat (e : InkEntry) : e.word.toNat = 0x80000000 * e.v.toNat + e.code.toNat := by
  have hc := e.code.isLt
  have w := place_zero_toNat e.code (by omega)
  rw [InkEntry.word, placeBit_top_or_toNat (by omega), w]

theorem errorCode_bits_toNat (e : ErrorCode) : e.bits.toNat = codeNumber e := by cases e <;> rfl

theorem statusWord_toNat (s : State) :
    s.statusWord.toNat = s.busy.toNat + 2 * s.status.done.toNat + 4 * s.status.err.toNat + 8 * s.status.ovr.toNat
      + 256 * codeNumber s.status.ecode := by
  have flags := fourFlags_toNat s.busy s.status.done s.status.err s.status.ovr
  have h0 := s.busy.toNat_lt
  have h1 := s.status.done.toNat_lt
  have h2 := s.status.err.toNat_lt
  have h3 := s.status.ovr.toNat_lt
  rw [State.statusWord, or_place_toNat (k := 8) _ (by omega) (by omega), flags, errorCode_bits_toNat]
  omega

/-- Settles O55, register by register. -/
theorem operandReadsShowFields : Obligations.OperandReadsShowFields := by
  unfold Obligations.OperandReadsShowFields
  intro s rd o
  have wide : ∀ {n : Nat} (x : BitVec n), n ≤ 32 → (x.setWidth 32).toNat = x.toNat :=
    fun x hn => BitVec.toNat_setWidth_of_le hn
  refine ⟨irqEnable_word_toNat _, rfl, rfl, wide _ (by decide), wide _ (by decide), wide _ (by decide),
    wide _ (by decide), wide _ (by decide), wide _ (by decide), wide _ (by decide), wide _ (by decide),
    wide _ (by decide), wide _ (by decide), placeBit_zero_toNat _, rgbWord_toNat _, wide _ (by decide),
    wide _ (by decide), fourFlags_toNat _ _ _ _, modeReg_word_toNat _, wide _ (by decide), rfl, fun c => ?_,
    fun i => ?_⟩
  · show (regRead (regAt (0x100 + 4 * c.val)) s).toNat = _
    rw [regAt_hwpal c]
    exact hwEntry_word_toNat _
  · show (regRead (regAt (0x200 + 4 * i.val)) s).toNat = _
    rw [regAt_inkmap i]
    exact inkEntry_word_toNat _

/-- Settles O19: BUSY is PENDING's validity by definition, and the word is the sum of its fields. -/
theorem statusReadShowsFields : Obligations.StatusReadShowsFields := by
  unfold Obligations.StatusReadShowsFields
  exact fun s => ⟨Option.isSome_iff_exists, statusWord_toNat s⟩

/-- Settles O54: the read is that of `regAt`, which names the constants, the results and nothing else there. -/
theorem fixedAndResultReads : Obligations.FixedAndResultReads := by
  unfold Obligations.FixedAndResultReads
  intro s off rest hoff hturns
  refine ⟨regRead (regAt off) s, step_of_regRead hturns hoff.1 hoff.2, rfl, ?_, ?_, ?_, ?_, ?_, ?_, ?_, ?_,
    fun hempty => ?_⟩
  case refine_9 => rcases regAt_empty hoff hempty with e | e <;> rw [e] <;> rfl
  all_goals rintro rfl; rfl

theorem resetValue_empty {off : Nat} (h : (0x16C ≤ off ∧ off ≤ 0x1FC) ∨ 0x240 ≤ off) : resetValue off = 0 := by
  unfold resetValue
  repeat rw [if_neg (by omega)]

/-- Settles O20, part by part of the register space. -/
theorem resetRegisterValues : Obligations.ResetRegisterValues := by
  unfold Obligations.ResetRegisterValues
  refine ⟨fun off h => ?_, rfl, rfl⟩
  rcases regOffset_cases h with ⟨k, hk, rfl⟩ | ⟨c, rfl⟩ | ⟨hlo, hhi, e⟩ | ⟨i, rfl⟩ | ⟨hlo, e⟩
  · clear h; revert k; decide
  · rw [regAt_hwpal]; clear h; revert c; decide
  · rw [e, resetValue_empty (.inl ⟨hlo, hhi⟩)]; rfl
  · rw [regAt_inkmap]; clear h; revert i; decide
  · rw [e, resetValue_empty (.inr hlo)]; rfl

end Sys2Proof.Proofs
end

section
/-! A write to a register that holds data, and what the registers read after it (10_state.md R17, R18). -/

namespace Sys2Proof.Proofs

open Sys2Proof.Machine Sys2Proof.Claims

/-! ## The words of R17 after a write: the written word under the mask of the register's fields -/

theorem irqenOf_word (v : Word) : (irqenOf v).word = v &&& 0x7 := by
  simp only [irqenOf, IrqEnable.word, placeBit_getLsbD, Nat.reduceLT, ← BitVec.and_or_distrib_left]
  rfl

theorem flagsOf_word (v : Word) : (flagsOf v).word = v &&& 0xF := by
  simp only [flagsOf, TransformFlags.word, placeBit_getLsbD, Nat.reduceLT, ← BitVec.and_or_distrib_left]
  rfl

theorem modeOf_word (v : Word) : (modeOf v).word = v &&& 0x13 := by
  simp only [modeOf, ModeReg.word, place_field, placeBit_getLsbD, Nat.reduceLT, ← BitVec.and_or_distrib_left]
  rfl

theorem rgbOf_word (v : Word) : rgbWord (rgbOf v) = v &&& 0xFFFFFF := by
  simp only [rgbOf, rgbWord, place_field, ← BitVec.and_or_distrib_left]
  rfl

theorem hwEntryOf_word (v : Word) : (hwEntryOf v).word = v &&& 0x80FFFFFF := by
  simp only [hwEntryOf, HwEntry.word, rgbOf_word, placeBit_getLsbD, Nat.reduceLT, ← BitVec.and_or_distrib_left]
  rfl

theorem inkEntryOf_word (v : Word) : (inkEntryOf v).word = v &&& 0x8000001F := by
  simp only [inkEntryOf, InkEntry.word, place_field, placeBit_getLsbD, Nat.reduceLT, ← BitVec.and_or_distrib_left]
  rfl

theorem inkEntryOf_code_toNat (v : Word) : (inkEntryOf v).code.toNat = v.toNat % 32 := by
  simp [inkEntryOf, field, BitVec.extractLsb'_toNat]

/-! ## The registers that hold what the host writes -/

/-- The RW registers but CMD and STATUS, whose writes act instead of being stored (R17, R65, R123). -/
def holdsData : Reg → Bool
  | .id | .version | .cmd | .status | .result | .count | .outlen | .outW | .outH | .hwpalHole | .reserved => false
  | _ => true

/-- A written word is refused by no palette check: only INKMAP has one (R34). -/
def codeOk (r : Reg) (v : Word) : Prop := ∀ i, r = .inkmap i → (inkEntryOf v).code.toNat ≤ 26

/-- Where the registers that hold data stand (R17). -/
theorem holdsData_regAt {off : Nat} (h4 : off % 4 = 0)
    (hr : (0x010 ≤ off ∧ off ≤ 0x060) ∨ (0x100 ≤ off ∧ off ≤ 0x168) ∨ (0x200 ≤ off ∧ off ≤ 0x23C)) :
    holdsData (regAt off) = true := by
  rcases regOffset_cases ⟨h4, by omega⟩ with ⟨k, hk, rfl⟩ | ⟨c, rfl⟩ | ⟨_, _, -⟩ | ⟨i, rfl⟩ | ⟨_, -⟩
  · have key : ∀ k < 64, 0x010 ≤ 4 * k → 4 * k ≤ 0x060 → holdsData (regAt (4 * k)) = true := by decide
    exact key k hk (by omega) (by omega)
  · rw [regAt_hwpal]; rfl
  · omega
  · rw [regAt_inkmap]; rfl
  · omega

/-- INKMAP stands from 0x200 on (R17). -/
theorem codeOk_regAt {off : Nat} {v : Word} (h : regOffsetOk off) (hv : 0x200 ≤ off → v.toNat % 32 ≤ 26) :
    codeOk (regAt off) v := by
  intro i hi
  have hoff := regOffset_regAt h (by simp [hi]) (by simp [hi])
  rw [hi] at hoff
  rw [inkEntryOf_code_toNat]
  exact hv (hoff ▸ Nat.le_add_right _ _)

/-- A register that holds data stands at its own offset. -/
theorem regOffset_of_holdsData {off : Nat} (h : regOffsetOk off) (hd : holdsData (regAt off) = true) :
    regOffset (regAt off) = off :=
  regOffset_regAt h (fun e => by rw [e] at hd; cases hd) (fun e => by rw [e] at hd; cases hd)

/-- Two offsets do not name the same register that holds data. -/
theorem regAt_ne_of_holdsData {off other : Nat} (h : regOffsetOk off) (ho : regOffsetOk other)
    (hd : holdsData (regAt off) = true) (hne : other ≠ off) : regAt other ≠ regAt off := by
  intro heq
  have hother := regOffset_of_holdsData ho (heq ▸ hd)
  rw [heq, regOffset_of_holdsData h hd] at hother
  exact hne hother.symm

/-- How a register that holds data is stored: IRQEN, a palette entry, or an operand. -/
theorem regStore_of_holdsData {r : Reg} {v : Word} (hd : holdsData r = true) (hv : codeOk r v) (s : State) :
    (r = .irqen ∧ regStore r v s = { s with irqen := irqenOf v })
    ∨ (∃ c, r = .hwpal c ∧ regStore r v s = { s with hwpal := s.hwpal.set c (hwEntryOf v) })
    ∨ (∃ i, r = .inkmap i ∧ regStore r v s = { s with inkmap := s.inkmap.set i (inkEntryOf v) })
    ∨ (r ≠ .irqen ∧ (∀ c, r ≠ .hwpal c) ∧ (∀ i, r ≠ .inkmap i)
        ∧ regStore r v s = { s with opr := operandWrite r v s.opr }) := by
  cases r with
  | irqen => exact .inl ⟨rfl, rfl⟩
  | hwpal c => exact .inr (.inl ⟨c, rfl, rfl⟩)
  | inkmap i => exact .inr (.inr (.inl ⟨i, rfl, if_neg (Nat.not_lt.mpr (hv i rfl))⟩))
  | id | version | cmd | status | result | count | outlen | outW | outH | hwpalHole | reserved => cases hd
  | _ => exact .inr (.inr (.inr ⟨by simp, by simp, by simp, rfl⟩))

theorem writeKind_of_holdsData {r : Reg} (hd : holdsData r = true) : writeKind r ≠ .ignored := by
  cases r with
  | id | version | cmd | status | result | count | outlen | outW | outH | hwpalHole | reserved => cases hd
  | _ => simp [writeKind]

/-- While nothing is pending such a write is stored (R68). -/
theorem regWrite_of_holdsData {r : Reg} {s : State} (hd : holdsData r = true) (hidle : s.busy = false) (v : Word) :
    regWrite r v s = regStore r v s := by
  rcases regWrite_cases r v s with ⟨hk, -⟩ | ⟨-, hbusy, -⟩ | ⟨-, e⟩ | ⟨-, -, e⟩
  · exact absurd hk (writeKind_of_holdsData hd)
  · simp [hidle] at hbusy
  · exact e
  · exact e

/-! ## Reads after a write -/

/-- An operand register reads back the bits its fields define (R24 to R31). -/
theorem regRead_operandWrite_same {r : Reg} (hd : holdsData r = true) (hirq : r ≠ .irqen)
    (hhw : ∀ c, r ≠ .hwpal c) (hink : ∀ i, r ≠ .inkmap i) (v : Word) (s : State) :
    regRead r { s with opr := operandWrite r v s.opr } = v &&& definedBits (regOffset r) := by
  cases r with
  | src | dst | arg => exact (BitVec.and_allOnes).symm
  | sprW | sprH | gridW | gridH | offX | offY | gapX | gapY | orgX | orgY | lines => exact field_setWidth v 16
  | matchTol | alphaThr => exact field_setWidth v 8
  | pixfmt => exact placeBit_getLsbD v (by decide)
  | matchRef => exact rgbOf_word v
  | flags => exact flagsOf_word v
  | mode => exact modeOf_word v
  | irqen => exact absurd rfl hirq
  | hwpal c => exact absurd rfl (hhw c)
  | inkmap i => exact absurd rfl (hink i)
  | id | version | cmd | status | result | count | outlen | outW | outH | hwpalHole | reserved => cases hd

/-- Each field of the operand registers is written through one register only (R24 to R31). -/
theorem operandWrite_fields (r : Reg) (v : Word) (o : OperandRegs) :
    operandWrite r v o =
      { src := if r = .src then v else o.src
        dst := if r = .dst then v else o.dst
        sprW := if r = .sprW then field v 0 16 else o.sprW
        sprH := if r = .sprH then field v 0 16 else o.sprH
        gridW := if r = .gridW then field v 0 16 else o.gridW
        gridH := if r = .gridH then field v 0 16 else o.gridH
        offX := if r = .offX then field v 0 16 else o.offX
        offY := if r = .offY then field v 0 16 else o.offY
        gapX := if r = .gapX then field v 0 16 else o.gapX
        gapY := if r = .gapY then field v 0 16 else o.gapY
        orgX := if r = .orgX then field v 0 16 else o.orgX
        orgY := if r = .orgY then field v 0 16 else o.orgY
        ch4 := if r = .pixfmt then v.getLsbD 0 else o.ch4
        matchRef := if r = .matchRef then rgbOf v else o.matchRef
        matchTol := if r = .matchTol then field v 0 8 else o.matchTol
        alphaThr := if r = .alphaThr then field v 0 8 else o.alphaThr
        flags := if r = .flags then flagsOf v else o.flags
        mode := if r = .mode then modeOf v else o.mode
        lines := if r = .lines then field v 0 16 else o.lines
        arg := if r = .arg then v else o.arg } := by
  cases r <;> rfl

/-- A write to one operand register changes what no other register reads. -/
theorem regRead_operandWrite_of_ne {r other : Reg} (hne : other ≠ r) (v : Word) (s : State) :
    regRead other { s with opr := operandWrite r v s.opr } = regRead other s := by
  cases other with
  | status => rfl
  | _ => simp [regRead, operandWrite_fields, hne.symm]

/-- What such a write stores reads back with the reserved bits 0 (R18). -/
theorem regRead_regStore_same {r : Reg} {v : Word} (hd : holdsData r = true) (hv : codeOk r v) (s : State) :
    regRead r (regStore r v s) = v &&& definedBits (regOffset r) := by
  rcases regStore_of_holdsData hd hv s with ⟨rfl, e⟩ | ⟨c, rfl, e⟩ | ⟨i, rfl, e⟩ | ⟨hirq, hhw, hink, e⟩ <;> rw [e]
  · exact irqenOf_word v
  · have mask : ∀ c : Fin Config.hwpalSize, definedBits (regOffset (.hwpal c)) = 0x80FFFFFF := by decide
    rw [mask c, ← hwEntryOf_word]
    simp [regRead]
  · have mask : ∀ i : Fin Config.inkCount, definedBits (regOffset (.inkmap i)) = 0x8000001F := by decide
    rw [mask i, ← inkEntryOf_word]
    simp [regRead]
  · exact regRead_operandWrite_same hd hirq hhw hink v s

/-- Every other register reads as before. -/
theorem regRead_regStore_of_ne {r other : Reg} {v : Word} (hd : holdsData r = true) (hv : codeOk r v)
    (hne : other ≠ r) (s : State) : regRead other (regStore r v s) = regRead other s := by
  rcases regStore_of_holdsData hd hv s with ⟨rfl, e⟩ | ⟨c, rfl, e⟩ | ⟨i, rfl, e⟩ | ⟨-, -, -, e⟩ <;> rw [e]
  · cases other with
    | irqen => exact absurd rfl hne
    | _ => rfl
  · cases other with
    | hwpal d =>
      have hcd : c.val ≠ d.val := fun h => hne (by rw [Fin.ext h])
      simp [regRead, Vector.getElem_set_ne, hcd]
    | _ => rfl
  · cases other with
    | inkmap j =>
      have hij : i.val ≠ j.val := fun h => hne (by rw [Fin.ext h])
      simp [regRead, Vector.getElem_set_ne, hij]
    | _ => rfl
  · exact regRead_operandWrite_of_ne hne v s

/-- The write leaves PENDING, BUF and the schedule. -/
theorem regStore_frame_of_holdsData {r : Reg} {v : Word} (hd : holdsData r = true) (hv : codeOk r v) (s : State) :
    (regStore r v s).pending = s.pending ∧ (regStore r v s).buf = s.buf ∧ (regStore r v s).turns = s.turns := by
  rcases regStore_of_holdsData hd hv s with ⟨-, e⟩ | ⟨c, -, e⟩ | ⟨i, -, e⟩ | ⟨-, -, -, e⟩ <;> rw [e] <;>
    exact ⟨rfl, rfl, rfl⟩

/-- No register shows the schedule or the host's datum. -/
theorem regRead_turns_readData (r : Reg) (s : State) (ts : List Turn) (d : Word) :
    regRead r { s with turns := ts, readData := d } = regRead r s := by cases r <;> rfl

/-- The host's turn to write such a register while nothing is pending. -/
theorem step_of_dataWrite {s : State} {off : Nat} {v : Word} {rest : List Turn}
    (hturns : s.turns = .host (.write .reg 4 off v) :: rest) (hidle : s.busy = false) (hoff : regOffsetOk off)
    (hd : holdsData (regAt off) = true) :
    step s = .next (regStore (regAt off) v { s with turns := rest }) := by
  rw [step_of_regWrite hturns hoff.1 hoff.2, regWrite_of_holdsData (s := { s with turns := rest }) hd hidle]

/-- Settles O8: the write is stored, the read returns what was stored, and each register has its own offset. -/
theorem registerWriteReadsBack : Obligations.RegisterWriteReadsBack := by
  unfold Obligations.RegisterWriteReadsBack
  intro s off v rest hidle h4 hrange hcode hturns
  have hoff : regOffsetOk off := ⟨h4, by omega⟩
  have hd := holdsData_regAt h4 hrange
  have hv := codeOk_regAt hoff hcode
  have hwrite := step_of_dataWrite hturns hidle hoff hd
  have hsame := regRead_regStore_same hd hv { s with turns := .host (.read .reg 4 off) :: rest }
  have hother := fun other ho hne =>
    regRead_regStore_of_ne hd hv (regAt_ne_of_holdsData (other := other) hoff ho hd hne)
      { s with turns := .host (.read .reg 4 off) :: rest }
  obtain ⟨hpending, hbuf, htsched⟩ :=
    regStore_frame_of_holdsData hd hv { s with turns := .host (.read .reg 4 off) :: rest }
  generalize regStore (regAt off) v { s with turns := .host (.read .reg 4 off) :: rest } = t at *
  refine ⟨t, _, hwrite, step_of_regRead htsched hoff.1 hoff.2, ?_, rfl, hpending, hbuf, fun other ho hne => ?_⟩
  · calc regRead (regAt off) { t with turns := rest }
        = regRead (regAt off) t := regRead_turns_readData _ t rest t.readData
      _ = v &&& definedBits off := by rw [hsame, regOffset_of_holdsData hoff hd]
  · calc regRead (regAt other) { t with turns := rest, readData := _ }
        = regRead (regAt other) t := regRead_turns_readData _ t rest _
      _ = regRead (regAt other) { s with turns := .host (.read .reg 4 off) :: rest } := hother other ho hne
      _ = regRead (regAt other) s := regRead_turns_readData _ s _ s.readData

end Sys2Proof.Proofs
end

section
/-! Host accesses: which of them fault (20_memory.md R42, 70_reset_and_hazards.md R138), what a read returns and what a
write to BUF stores (20_memory.md R43, R44), and that no other turn stops. -/

namespace Sys2Proof.Proofs

open Sys2Proof.Machine Sys2Proof.Claims

/-! ## Which accesses fault -/

/-- The access rules make no difference between a read and a write (R42, R138). -/
theorem accessFault_eq_read {a : HostAccess} {sp : Space} {size off : Nat} {v : Word}
    (ha : a = .read sp size off ∨ a = .write sp size off v) (s : State) :
    accessFault a s = accessFault (.read sp size off) s := by
  rcases ha with rfl | rfl
  · rfl
  · cases sp <;> rfl

theorem accessFault_turns (a : HostAccess) (s : State) (ts : List Turn) :
    accessFault a { s with turns := ts } = accessFault a s := rfl

/-- The accesses that are no fault are those the rules allow (R42, R138). -/
theorem accessFault_read_eq_none {s : State} {sp : Space} {size off : Nat} :
    accessFault (.read sp size off) s = none ↔ accessAllowed s sp size off := by
  cases sp with
  | reg =>
    have hfault : accessFault (.read .reg size off) s = none ↔ regAccessOk size off = true := by
      cases h : regAccessOk size off <;> simp [accessFault, h]
    exact hfault.trans regAccessOk_iff
  | buf => exact bufFault_eq_none.trans (and_congr_right' bufAccessOk_iff)

/-- A forbidden access that is no access to BUF while BUSY is a bus error (R42). -/
theorem accessFault_read_eq_busError {s : State} {sp : Space} {size off : Nat} (hidle : sp = .buf → s.busy = false)
    (hbad : ¬ accessAllowed s sp size off) : accessFault (.read sp size off) s = some .hostBusError := by
  cases sp with
  | reg => exact if_neg (mt regAccessOk_iff.mp hbad)
  | buf =>
    have hbad' : ¬ bufAccessOk s size off = true := fun h => hbad ⟨hidle rfl, bufAccessOk_iff.mp h⟩
    calc bufFault s size off
        = if bufAccessOk s size off = true then none else some .hostBusError :=
          if_neg (Bool.eq_false_iff.mp (hidle rfl))
      _ = some .hostBusError := if_neg hbad'

/-! ## The host's turn -/

theorem step_of_accessOk {s : State} {a : HostAccess} {rest : List Turn} (hturns : s.turns = .host a :: rest)
    (hok : accessFault a s = none) : step s = .next (accessEffect a { s with turns := rest }) := by
  rw [step_of_host hturns, hostAccess, accessFault_turns, hok]

theorem step_of_accessFault {s : State} {a : HostAccess} {rest : List Turn} {f : Fault}
    (hturns : s.turns = .host a :: rest) (hf : accessFault a s = some f) : step s = .fault f := by
  rw [step_of_host hturns, hostAccess, accessFault_turns, hf]

/-- On the host's turn the machine steps exactly when the access is allowed. -/
theorem accessAllowed_iff_step {s : State} {a : HostAccess} {sp : Space} {size off : Nat} {v : Word}
    {rest : List Turn} (ha : a = .read sp size off ∨ a = .write sp size off v) (hturns : s.turns = .host a :: rest) :
    accessAllowed s sp size off ↔ ∃ t, step s = .next t := by
  rw [← accessFault_read_eq_none, ← accessFault_eq_read ha s]
  constructor
  · exact fun hok => ⟨_, step_of_accessOk hturns hok⟩
  · rintro ⟨t, ht⟩
    rw [step_of_host hturns] at ht
    exact (hostAccess_next ht).1

theorem step_busError {s : State} {a : HostAccess} {sp : Space} {size off : Nat} {v : Word} {rest : List Turn}
    (ha : a = .read sp size off ∨ a = .write sp size off v) (hturns : s.turns = .host a :: rest)
    (hidle : sp = .buf → s.busy = false) (hbad : ¬ accessAllowed s sp size off) : step s = .fault .hostBusError :=
  step_of_accessFault hturns ((accessFault_eq_read ha s).trans (accessFault_read_eq_busError hidle hbad))

/-- Settles O12: with nothing pending, the rules for an allowed access are those of R42 alone. -/
theorem onlyIllegalAccessesAreBusErrors : Obligations.OnlyIllegalAccessesAreBusErrors := by
  unfold Obligations.OnlyIllegalAccessesAreBusErrors
  intro s sp size off v rest a ha hturns
  constructor
  · rintro rfl
    exact ⟨accessAllowed_iff_step ha hturns, step_busError ha hturns nofun⟩
  · rintro rfl hidle
    exact ⟨(and_iff_right hidle).symm.trans (accessAllowed_iff_step ha hturns),
      fun hbad => step_busError ha hturns (fun _ => hidle) fun hok => hbad hok.2⟩

/-! ## Reads (R43, R44) -/

/-- What a read returns depends neither on the schedule nor on the datum of the read before. -/
theorem readDatum_turns_readData (sp : Space) (size off : Nat) (s : State) (ts : List Turn) (d : Word) :
    readDatum sp size off { s with turns := ts, readData := d } = readDatum sp size off s := by
  cases sp with
  | reg => exact regRead_turns_readData (regAt off) s ts d
  | buf => rfl

/-- A legal host read. -/
theorem step_of_read {s : State} {sp : Space} {size off : Nat} {d : Word} {rest : List Turn}
    (hturns : s.turns = .host (.read sp size off) :: rest) (hok : accessAllowed s sp size off)
    (hd : readDatum sp size off s = d) : step s = .next { s with turns := rest, readData := d } := by
  rw [step_of_accessOk hturns (accessFault_read_eq_none.mpr hok), accessEffect,
    readDatum_turns_readData sp size off s rest s.readData, hd]

/-- Settles O9: the second read is a legal read of the same datum, since the first changed nothing a read depends on. -/
theorem hostReadChangesNothing : Obligations.HostReadChangesNothing := by
  unfold Obligations.HostReadChangesNothing
  intro s sp size off rest hturns hok
  exact ⟨readDatum sp size off s, step_of_read hturns hok rfl,
    step_of_read rfl hok (readDatum_turns_readData sp size off s _ _)⟩

/-- Byte `k` of a little-endian word (R43). -/
theorem leWord_byte {l : List Byte} (h : l.length ≤ 4) {k : Nat} (hk : k < l.length) :
    (leWord l).toNat / 256 ^ k % 256 = l[k].toNat := by
  have hdigits : ∀ n ∈ l.map BitVec.toNat, n < 256 := by
    simp only [List.mem_map]
    rintro n ⟨b, -, rfl⟩
    exact b.isLt
  calc (leWord l).toNat / 256 ^ k % 256
      = Nat.ofDigits 256 ((l.map BitVec.toNat).drop k) % 256 := by
        rw [(leWord_toNat h).1, Nat.ofDigits_div_pow_eq_ofDigits_drop k (by omega) _ hdigits]
    _ = l[k].toNat := by
        rw [List.drop_eq_getElem_cons (by simpa using hk), List.getElem_map, Nat.ofDigits_cons,
          Nat.add_mul_mod_self_left, Nat.mod_eq_of_lt l[k].isLt]

/-- Settles O11: the datum is the little-endian word of the bytes read. -/
theorem bufReadIsLittleEndian : Obligations.BufReadIsLittleEndian := by
  unfold Obligations.BufReadIsLittleEndian
  intro s size off rest hidle hsize halign hin hturns
  have hlen : (s.readBytes off size).length ≤ 4 := by rw [length_readBytes]; omega
  refine ⟨leWord (s.readBytes off size), step_of_read hturns ⟨hidle, hsize, halign, hin⟩ rfl, ?_, fun k hk => ?_⟩
  · simpa using (leWord_toNat hlen).2
  · rw [leWord_byte hlen (by simpa using hk)]
    simp [State.readBytes]

/-! ## Writes to BUF (R43, R44) -/

/-- Byte `k` of a word, as a field of it. -/
theorem field_byte_toNat (v : Word) (k : Nat) : (field v (8 * k) 8).toNat = v.toNat / 256 ^ k % 256 := by
  rw [field, BitVec.extractLsb'_toNat, Nat.shiftRight_eq_div_pow, pow_mul]
  rfl

theorem getElem?_leBytes (v : Word) {size k : Nat} (hk : k < size) : (leBytes v size)[k]? = some (field v (8 * k) 8) :=
  Laws.getElem?_map_range _ size k hk

/-- A legal host write to BUF. -/
theorem step_of_bufWrite {s : State} {size off : Nat} {v : Word} {rest : List Turn}
    (hturns : s.turns = .host (.write .buf size off v) :: rest) (hok : accessAllowed s .buf size off) :
    step s = .next { s with turns := rest, buf := s.buf.writeBlock off (leBytes v size) } :=
  step_of_accessOk hturns (accessFault_read_eq_none.mpr hok)

/-- Settles O10: the write stores the little-endian bytes of its datum as one block. -/
theorem bufWriteIsLittleEndian : Obligations.BufWriteIsLittleEndian := by
  unfold Obligations.BufWriteIsLittleEndian
  intro s size off v rest hidle hsize halign hin hturns
  have hlen := length_leBytes v size
  refine ⟨_, step_of_bufWrite hturns ⟨hidle, hsize, halign, hin⟩, rfl, fun x hx => ?_, fun k hk => ?_⟩
  · exact readByte_writeBlock_outside (by rfl) (by rfl) (hlen.symm ▸ hx)
  · rw [readByte_writeBlock_inside (s := s) rfl (by rwa [hlen]) (getElem?_leBytes v hk), field_byte_toNat]

/-! ## Every turn: which steps answer a next state, and the schedule after it -/

/-- The engine's turn never stops: a command ends in error entry or completes (R70). -/
theorem engineStep_total (s : State) : ∃ t, engineStep s = .next t := by
  rcases engineStep_cases s with ⟨-, e⟩ | ⟨v, i, -, -, e⟩ | ⟨v, d, -, -, e⟩ <;> rw [e]
  · exact ⟨_, rfl⟩
  · obtain ⟨err, r, b, hexec, -⟩ := exec_eq_command i s
    rw [hexec]
    cases err with
    | none => exact ⟨_, command_none r b s⟩
    | some c => exact ⟨_, command_some c r b s⟩
  · exact ⟨_, rfl⟩

theorem engineStep_turns {s t : State} (h : engineStep s = .next t) : t.turns = s.turns := by
  rcases engineStep_next h with rfl | ⟨e, -, rfl⟩ | ⟨r, b, rfl, -⟩ <;> rfl

theorem hostAccess_turns {a : HostAccess} {s t : State} (h : hostAccess a s = .next t) : t.turns = s.turns := by
  obtain ⟨-, rfl⟩ := hostAccess_next h
  match a with
  | .read _ _ _ | .write .buf _ _ _ => rfl
  | .write .reg _ off v => exact regWrite_turns (regAt off) v s

/-- The next turn of a schedule that is not spent (R64). -/
theorem step_of_turn {s : State} {u : Turn} {rest : List Turn} (h : s.turns = u :: rest) :
    step s = takeTurn u { s with turns := rest } := by rw [step, runTurn, h]

/-- A step spends its turn. -/
theorem step_turns {s t : State} (h : step s = .next t) : t.turns = s.turns.tail := by
  rcases step_next h with he | ⟨a, rest, hturns, ha⟩ | ⟨rest, hturns, rfl⟩ | ⟨rest, hturns, rfl⟩
  · exact engineStep_turns he
  · rw [hostAccess_turns ha, hturns, List.tail_cons]
  · rw [warmReset_turns, hturns, List.tail_cons]
  · rw [powerOn_turns, hturns, List.tail_cons]

/-- The steps that answer a next state are those whose turn is allowed. -/
theorem turnAllowed_iff_step (s : State) : turnAllowed s ↔ ∃ t, step s = .next t := by
  unfold turnAllowed
  match hturns : s.turns with
  | [] => exact iff_of_true trivial (step_of_engine (.inl hturns) ▸ engineStep_total _)
  | .engine :: _ => exact iff_of_true trivial (step_of_turn hturns ▸ engineStep_total _)
  | .host (.read _ _ _) :: _ => exact accessAllowed_iff_step (v := 0) (.inl rfl) hturns
  | .host (.write _ _ _ v) :: _ => exact accessAllowed_iff_step (.inr rfl) hturns
  | .reset :: rest => exact iff_of_true trivial ⟨warmReset { s with turns := rest }, step_of_turn hturns⟩
  | .powerOn :: rest => exact iff_of_true trivial ⟨powerOn { s with turns := rest }, step_of_turn hturns⟩

/-- Settles O45, turn by turn: only a host access can stop. -/
theorem legalTurnsNeverStop : Obligations.LegalTurnsNeverStop := by
  unfold Obligations.LegalTurnsNeverStop
  exact fun s => ⟨turnAllowed_iff_step s, fun _ => step_turns⟩

end Sys2Proof.Proofs
end

section
/-! Which words are commands (30_encoding.md R59, R61, R62), and how a pending word that is none ends. -/

namespace Sys2Proof.Proofs

open Sys2Proof.Machine Sys2Proof.Claims

/-! ## The two fields of a command word, and the OP values that select an operation -/

/-- The decoder checks RSV, and OP alone then tells the operation (R59). -/
theorem decode_eq_ok_iff {w : Word} {i : Instr} :
    decode w = .ok i ↔ (cmdFields w).rsv = 0 ∧ opInstr (cmdFields w).op = some i := by
  rw [← rsvOk_iff, decode]
  cases (cmdFields w).rsvOk <;> cases opInstr (cmdFields w).op <;> simp

theorem rsv_eq_zero_iff {w : Word} : (cmdFields w).rsv = 0 ↔ w.toNat / 16 = 0 := by
  rw [← (cmdFields_toNat w).2, BitVec.toNat_eq]
  rfl

/-- The OP value of an operation is its word's number (R61). -/
theorem opInstr_eq_some_iff {op : BitVec 4} {i : Instr} : opInstr op = some i ↔ op.toNat = (encode i).toNat := by
  constructor <;> intro h
  · unfold opInstr at h
    split at h <;> cases h <;> assumption
  · cases i <;> simp [opInstr, h, encode]

/-- The twelve assigned OP values are those below 0xC (R61, R62). -/
theorem opInstr_isSome_iff (op : BitVec 4) : (opInstr op).isSome ↔ op.toNat < 12 := by
  revert op
  decide

/-! ## Decoder and encoder -/

theorem encode_toNat_lt (i : Instr) : (encode i).toNat < 12 := by
  cases i <;> decide

/-- Settles O1: with RSV = 0 a word is the number of its OP, and that is the number of the command's word. -/
theorem decodeAgreesWithEncode : Obligations.DecodeAgreesWithEncode := by
  unfold Obligations.DecodeAgreesWithEncode
  intro w i
  have hlt := encode_toNat_lt i
  calc decode w = .ok i
      ↔ w.toNat / 16 = 0 ∧ w.toNat % 16 = (encode i).toNat := by
        rw [decode_eq_ok_iff, rsv_eq_zero_iff, opInstr_eq_some_iff, (cmdFields_toNat w).1]
    _ ↔ w.toNat = (encode i).toNat := by omega
    _ ↔ w = encode i := BitVec.toNat_eq.symm

theorem decode_encode (i : Instr) : decode (encode i) = .ok i := (decodeAgreesWithEncode (encode i) i).mpr rfl

/-- Settles O2: each of the words is its command's. -/
theorem tableWordsDecode : Obligations.TableWordsDecode :=
  ⟨decode_encode .nop, decode_encode .matchPixel, decode_encode .pack, decode_encode .unpack, decode_encode .xform,
    decode_encode .deint, decode_encode .pallook, decode_encode .pixidx⟩

/-! ## Illegal words -/

/-- The legal words (R62). -/
theorem exists_decode_ok_iff (w : Word) : (∃ i, decode w = .ok i) ↔ w.toNat % 16 < 12 ∧ w.toNat / 16 = 0 := by
  simp only [decode_eq_ok_iff, exists_and_left, ← Option.isSome_iff_exists]
  rw [rsv_eq_zero_iff, opInstr_isSome_iff, (cmdFields_toNat w).1, and_comm]

/-- A pending word that is no command enters the error state (R62, R69). -/
theorem engineStep_of_illegal {s : State} {w : Word} (hp : s.pending = some w) (hbad : ¬ ∃ i, decode w = .ok i) :
    engineStep s = .next (errorEntry .badOp s) := by
  rcases engineStep_cases s with ⟨hnone, -⟩ | ⟨v, i, hv, hi, -⟩ | ⟨-, -, -, -, e⟩
  · simp [hp] at hnone
  · obtain rfl : w = v := Option.some.inj (hp.symm.trans hv)
    exact absurd ⟨i, hi⟩ hbad
  · exact e

/-- Settles O3: a word outside the legal ones decodes to no command, and error entry changes STATUS and PENDING only. -/
theorem illegalWordFailsBadOp : Obligations.IllegalWordFailsBadOp := by
  unfold Obligations.IllegalWordFailsBadOp
  refine fun s w => ⟨exists_decode_ok_iff w, fun rest hp hturns hillegal => ?_⟩
  have hbad : ¬ ∃ i, decode w = .ok i := by rw [exists_decode_ok_iff]; omega
  calc step s
      = engineStep { s with turns := rest } := step_of_turn hturns
    _ = .next (failed .badOp { s with turns := rest }) := engineStep_of_illegal hp hbad

end Sys2Proof.Proofs
end

section
/-! The command engine: issue of a command (40_command_engine.md R65 to R68), the engine's step (R70), what every
completion keeps, and what no host access reaches while a command is pending or the error state lasts. -/

namespace Sys2Proof.Proofs

open Sys2Proof.Machine Sys2Proof.Claims

/-! ## The engine's turn -/

theorem busy_eq_false_iff {s : State} : s.busy = false ↔ s.pending = none := by simp [State.busy]

theorem engineStep_of_idle {s : State} (hp : s.pending = none) : engineStep s = .next s := by
  rw [engineStep, hp]

theorem engineStep_of_command {s : State} {w : Word} {i : Instr} (hp : s.pending = some w) (hd : decode w = .ok i) :
    engineStep s = exec i s := by
  simp only [engineStep, hp, hd]

/-- Settles O4: the pending word decodes to the command. -/
theorem stepRunsPendingCommand : Obligations.StepRunsPendingCommand := by
  unfold Obligations.StepRunsPendingCommand
  intro s w i hp hd _ hturn
  calc step s
      = engineStep { s with turns := s.turns.tail } := step_of_engine hturn
    _ = exec i { s with turns := s.turns.tail } := engineStep_of_command hp hd

/-! ## Completion (R69, R70) -/

/-- Settles O31: NOP has no check that could fail and writes no byte. -/
theorem nopOnlyCompletes : Obligations.NopOnlyCompletes := by
  unfold Obligations.NopOnlyCompletes
  intro s
  calc exec .nop s
      = command none s.res [] s := rfl
    _ = .next (complete s.res [] s) := command_none s.res [] s

/-- Every meaning is a completion step, and that answers a next state. -/
theorem exec_total (i : Instr) (s : State) : ∃ t, exec i s = .next t := by
  obtain ⟨err, r, b, hexec, -⟩ := exec_eq_command i s
  rw [hexec]
  cases err with
  | none => exact ⟨_, command_none r b s⟩
  | some e => exact ⟨_, command_some e r b s⟩

/-- Settles O23: error entry and success alike set DONE, clear PENDING and keep what the statement lists. -/
theorem everyCommandCompletes : Obligations.EveryCommandCompletes := by
  unfold Obligations.EveryCommandCompletes
  intro i s
  obtain ⟨t, ht⟩ := exec_total i s
  refine ⟨t, ht, ?_⟩
  rcases exec_cases ht with ⟨e, -, rfl⟩ | ⟨r, b, rfl, -⟩
  · exact ⟨rfl, rfl, rfl, rfl, rfl, rfl, rfl, rfl, rfl, rfl⟩
  · exact ⟨rfl, rfl, rfl, rfl, rfl, rfl, rfl, rfl, rfl, rfl⟩

/-- The final STATUS follows from the outcome of the checks and the STATUS before; the outputs play no part. -/
theorem command_status_eq {err : Option ErrorCode} {r r' : ResultRegs} {b b' : List Byte} {s s' t t' : State}
    (h : command err r b s = .next t) (h' : command err r' b' s' = .next t') (hst : s'.status = s.status) :
    t'.status = t.status := by
  cases err with
  | none =>
    obtain rfl := Host.Outcome.next.inj h
    obtain rfl := Host.Outcome.next.inj h'
    rw [complete_status, complete_status, hst]
  | some e =>
    obtain rfl := Host.Outcome.next.inj h
    obtain rfl := Host.Outcome.next.inj h'
    rw [errorEntry_status, errorEntry_status, hst]

/-- Settles O25: the two runs are completion steps with the same outcome of the checks. -/
theorem validationIgnoresBuf : Obligations.ValidationIgnoresBuf := by
  unfold Obligations.ValidationIgnoresBuf
  intro i s t t' m n ht ht'
  obtain ⟨err, r, b, hexec, -, hother⟩ := exec_eq_command i s
  obtain ⟨r', b', hexec'⟩ := hother m n
  rw [hexec] at ht
  rw [hexec'] at ht'
  exact command_status_eq ht ht' rfl

/-! ## When a register takes a write (R17, R68) -/

theorem writeKind_of_takesWritesWhenIdle {off : Nat} (h : regOffsetOk off) (ht : takesWritesWhenIdle off) :
    writeKind (regAt off) = .whenIdle := by
  unfold takesWritesWhenIdle at ht
  rcases regOffset_cases h with ⟨k, hk, rfl⟩ | ⟨c, rfl⟩ | ⟨-, -, e⟩ | ⟨i, rfl⟩ | ⟨_, -⟩
  · have key : ∀ k < 64, 0x014 ≤ 4 * k → 4 * k ≤ 0x060 → writeKind (regAt (4 * k)) = .whenIdle := by decide
    exact key k hk (by omega) (by omega)
  · rw [regAt_hwpal]; rfl
  · rw [e]; rfl
  · rw [regAt_inkmap]; rfl
  · omega

theorem writeKind_of_ignoresWrites {off : Nat} (h : regOffsetOk off) (hi : ignoresWrites off) :
    writeKind (regAt off) = .ignored := by
  unfold ignoresWrites at hi
  rcases regOffset_cases h with ⟨k, hk, rfl⟩ | ⟨c, rfl⟩ | ⟨_, _, -⟩ | ⟨i, rfl⟩ | ⟨-, e⟩
  · have key : ∀ k < 64, 4 * k ≤ 0x004 ∨ 0x064 ≤ 4 * k → writeKind (regAt (4 * k)) = .ignored := by decide
    exact key k hk (by omega)
  · have := c.isLt; unfold Config.hwpalSize at this; omega
  · omega
  · have := i.isLt; unfold Config.inkCount at this; omega
  · rw [e]; rfl

/-- The registers that take writes at any time. -/
theorem writeKind_eq_always_iff {r : Reg} : writeKind r = .always ↔ r = .cmd ∨ r = .status ∨ r = .irqen := by
  cases r <;> simp [writeKind]

theorem regWrite_of_ignored {r : Reg} (hk : writeKind r = .ignored) (v : Word) (s : State) :
    regWrite r v s = s := by rw [regWrite, hk]

theorem regWrite_of_discarded {r : Reg} {s : State} (hk : writeKind r = .whenIdle) (hbusy : s.busy = true)
    (v : Word) : regWrite r v s = setOverrun s := by
  rw [regWrite, hk]
  exact if_pos hbusy

/-- Settles O6: the step is the issue of the word. -/
theorem cmdWriteHasThreeOutcomes : Obligations.CmdWriteHasThreeOutcomes := by
  unfold Obligations.CmdWriteHasThreeOutcomes
  intro s v rest hturns
  have hstep : step s = .next (issue v { s with turns := rest }) := step_of_regWrite hturns rfl (by decide)
  rw [hstep]
  rcases issue_cases v { s with turns := rest } with ⟨hbusy, e⟩ | ⟨hidle, herr, e⟩ | ⟨hidle, herr, e⟩ <;> rw [e]
  · exact ⟨fun _ => rfl, fun h => absurd (h.symm.trans hbusy) nofun, fun h => absurd (h.symm.trans hbusy) nofun⟩
  · exact ⟨fun h => absurd (h.symm.trans hidle) nofun, fun _ _ => rfl, fun _ h => absurd (h.symm.trans herr) nofun⟩
  · exact ⟨fun h => absurd (h.symm.trans hidle) nofun, fun _ h => absurd (h.symm.trans herr) nofun, fun _ _ => rfl⟩

/-- Settles O7: each clause names offsets whose registers take writes in one way. -/
theorem registerWritesWhileBusy : Obligations.RegisterWritesWhileBusy := by
  unfold Obligations.RegisterWritesWhileBusy
  intro s off v rest hturns hoff
  obtain ⟨h4, hlt⟩ := hoff
  rw [step_of_regWrite hturns h4 hlt]
  refine ⟨fun hbusy ht => ?_, fun hi => ?_, ?_, ?_⟩
  · have hkind := writeKind_of_takesWritesWhenIdle ⟨h4, hlt⟩ ht
    rw [regWrite_of_discarded (s := { s with turns := rest }) hkind hbusy]
    rfl
  · rw [regWrite_of_ignored (writeKind_of_ignoresWrites ⟨h4, hlt⟩ hi)]
  · rintro rfl
    rfl
  · rintro rfl
    rfl

/-! ## What the host leaves alone while a command is pending, and in the error state -/

/-- `t` is `s` with another STATUS, IRQEN and host datum. -/
def commandKept (s t : State) : Prop :=
  t = { s with status := t.status, irqen := t.irqen, readData := t.readData }

/-- `t` is `s` with other registers than the result registers, and another host datum. -/
def outputsKept (s t : State) : Prop :=
  t = { s with
    status := t.status, irqen := t.irqen, opr := t.opr, hwpal := t.hwpal, inkmap := t.inkmap, readData := t.readData }

/-- While a command is pending only STATUS and IRQEN take a write (R66, R68). -/
theorem regWrite_commandKept {s : State} (hbusy : s.busy = true) (r : Reg) (v : Word) :
    commandKept s (regWrite r v s) := by
  rcases regWrite_cases r v s with ⟨-, e⟩ | ⟨-, -, e⟩ | ⟨hk, e⟩ | ⟨-, hidle, e⟩ <;> rw [e]
  · exact rfl
  · exact rfl
  · rcases writeKind_eq_always_iff.mp hk with rfl | rfl | rfl
    · rw [show regStore .cmd v s = setOverrun s from if_pos hbusy]
      rfl
    · exact rfl
    · exact rfl
  · exact absurd (hbusy.symm.trans hidle) nofun

theorem hostAccess_commandKept {a : HostAccess} {s t : State} (hbusy : s.busy = true)
    (hs : hostAccess a s = .next t) : commandKept s t := by
  obtain ⟨hok, rfl⟩ := hostAccess_next hs
  match a with
  | .read _ _ _ => exact rfl
  | .write .reg _ off v => exact regWrite_commandKept hbusy (regAt off) v
  | .write .buf _ _ _ => exact absurd (hbusy.symm.trans (bufFault_eq_none.mp hok).1) nofun

/-- In the error state a CMD write is not accepted (R67). -/
theorem issue_outputsKept {s : State} (herr : s.status.err = true) (v : Word) : outputsKept s (issue v s) := by
  rcases issue_cases v s with ⟨-, e⟩ | ⟨-, -, e⟩ | ⟨-, hok, -⟩
  · exact e ▸ rfl
  · exact e ▸ rfl
  · exact absurd (herr.symm.trans hok) nofun

theorem configured_outputsKept {s t : State} (h : configured s t) : outputsKept s t := by
  obtain ⟨ht, -⟩ := h
  rw [ht]
  rfl

theorem regStore_outputsKept {s : State} (herr : s.status.err = true) (r : Reg) (v : Word) :
    outputsKept s (regStore r v s) := by
  rcases regStore_cases r v s with ⟨-, e⟩ | ⟨-, e⟩ | ⟨-, c, -, e⟩ | hc
  · exact e ▸ issue_outputsKept herr v
  · exact e ▸ rfl
  · exact e ▸ rfl
  · exact configured_outputsKept hc

theorem regWrite_outputsKept {s : State} (herr : s.status.err = true) (r : Reg) (v : Word) :
    outputsKept s (regWrite r v s) := by
  rcases regWrite_cases r v s with ⟨-, e⟩ | ⟨-, -, e⟩ | ⟨-, e⟩ | ⟨-, -, e⟩ <;> rw [e]
  · exact rfl
  · exact rfl
  · exact regStore_outputsKept herr r v
  · exact regStore_outputsKept herr r v

/-- In the error state a host access writes no output, unless it writes BUF itself, which changes nothing else. -/
theorem hostAccess_outputsKept {a : HostAccess} {s t : State} (herr : s.status.err = true)
    (hs : hostAccess a s = .next t) :
    outputsKept s t ∨ ((∃ size off v, a = .write .buf size off v) ∧ t = { s with buf := t.buf }) := by
  obtain ⟨-, rfl⟩ := hostAccess_next hs
  match a with
  | .read _ _ _ => exact .inl rfl
  | .write .reg _ off v => exact .inl (regWrite_outputsKept herr (regAt off) v)
  | .write .buf size off v => exact .inr ⟨⟨size, off, v, rfl⟩, rfl⟩

/-- A turn that is neither the engine's nor a reset is the host's (R64). -/
theorem exists_host_turn {s : State} (he : ¬ engineNext s) (hr : ¬ resetNext s) :
    ∃ a rest, s.turns = .host a :: rest := by
  unfold engineNext at he
  unfold resetNext at hr
  match hturns : s.turns with
  | [] => exact absurd (.inl hturns) he
  | .engine :: _ => exact absurd (.inr (by rw [hturns]; rfl)) he
  | .host a :: rest => exact ⟨a, rest, rfl⟩
  | .reset :: _ => exact absurd (.inl (by rw [hturns]; rfl)) hr
  | .powerOn :: _ => exact absurd (.inr (by rw [hturns]; rfl)) hr

/-- Settles O26: the turn is a host access, which leaves all but STATUS and IRQEN while a command is pending. -/
theorem pendingCommandIsStable : Obligations.PendingCommandIsStable := by
  unfold Obligations.PendingCommandIsStable
  intro s t hbusy hs he hr
  obtain ⟨a, rest, hturns⟩ := exists_host_turn he hr
  rw [step_of_host hturns] at hs
  have hkept : commandKept { s with turns := rest } t := hostAccess_commandKept hbusy hs
  rw [hkept]
  exact ⟨rfl, rfl, rfl, rfl, rfl, rfl⟩

/-- A warm reset abandons no byte where nothing is pending (R134). -/
theorem warmReset_readByte_of_idle {s : State} (hp : s.pending = none) (x : Nat) :
    (warmReset s).readByte x = s.readByte x := by
  have hnone : abandonedBytes s = [] := by simp [abandonedBytes, abandonedSize, hp]
  refine readByte_writeBlock_outside (warmReset_buf s) (warmReset_powerOns s) ?_
  rw [hnone, List.length_nil]
  omega

/-- Settles O17, turn by turn: the engine rests, the host starts no command, and a reset abandons none. -/
theorem noOutputWhileError : Obligations.NoOutputWhileError := by
  unfold Obligations.NoOutputWhileError
  intro s t herr hidle hs
  have hp := busy_eq_false_iff.mp hidle
  rcases step_next hs with he | ⟨a, rest, hturns, ha⟩ | ⟨rest, hturns, rfl⟩ | ⟨rest, hturns, rfl⟩
  · rw [engineStep_of_idle (s := { s with turns := s.turns.tail }) hp] at he
    obtain rfl := Host.Outcome.next.inj he
    exact ⟨hidle, fun _ => rfl, .inl fun _ => rfl⟩
  · rcases hostAccess_outputsKept (s := { s with turns := rest }) herr ha with hkept | ⟨⟨size, off, v, rfl⟩, hkept⟩
    · rw [hkept]
      exact ⟨hidle, fun _ => rfl, .inl fun _ => rfl⟩
    · rw [hkept]
      exact ⟨hidle, fun _ => rfl, .inr (.inr ⟨size, off, v, by rw [hturns]; rfl⟩)⟩
  · have hreset : resetNext s := .inl (by rw [hturns]; rfl)
    exact ⟨rfl, fun h => absurd hreset h,
      .inl (warmReset_readByte_of_idle (s := { s with turns := rest }) hp)⟩
  · have hreset : s.turns.head? = some .powerOn := by rw [hturns]; rfl
    exact ⟨rfl, fun h => absurd (.inr hreset) h, .inr (.inl hreset)⟩

end Sys2Proof.Proofs
end

section
/-! The colour matcher (41_color_match.md): when a sampled pixel is on (R75 to R78), and MATCH (R80). -/

namespace Sys2Proof.Proofs

open Sys2Proof.Machine Sys2Proof.Claims

/-! ## When a pixel is on -/

/-- The natural-number distance of two channels is their integer one (R75, R12). -/
theorem absDiff_eq_natAbs (a b : Byte) : absDiff a b = ((a.toNat : Int) - (b.toNat : Int)).natAbs := by
  rw [absDiff]
  omega

/-- A colour matches when its three channels are near those of the reference colour (R75). -/
theorem matchRgb_iff {s : State} {c : Rgb} :
    matchRgb s c = true ↔
      near s c.r s.opr.matchRef.r ∧ near s c.g s.opr.matchRef.g ∧ near s c.b s.opr.matchRef.b := by
  simp only [matchRgb, decide_eq_true_eq, absDiff_eq_natAbs, near]

/-- INVERSE swaps the meaning of match and non-match (R76). -/
theorem onRgb_iff {s : State} {c : Rgb} :
    onRgb s c = true ↔ (matchRgb s c = true ↔ s.opr.flags.inverse = true) := by
  rw [onRgb, State.inverse, beq_iff_eq, Bool.eq_iff_iff]

/-- Only a pixel of four channels can be transparent (R77). -/
theorem transparent_pixelAt_iff {s : State} {a : Nat} :
    transparent s (pixelAt s a) = true
      ↔ s.opr.ch4 = true ∧ (s.readByte (a + 3)).toNat < s.opr.alphaThr.toNat := by
  cases h : s.opr.ch4 <;> simp [transparent, pixelAt, h]

/-- The matcher's answer for the pixel at an offset is whether that pixel is on (R78). -/
theorem sample_pixelAt_iff {s : State} {a : Nat} : sample s (pixelAt s a) = true ↔ pixelOn s a := by
  rw [sample, Bool.and_eq_true, Bool.not_eq_true', ← Bool.not_eq_true, onRgb_iff, matchRgb_iff,
    transparent_pixelAt_iff]
  rfl

/-! ## MATCH -/

/-- The one check of MATCH passes when the pixel at SRC lies in BUF (R80, R46). -/
theorem matchCheck_eq_none {s : State} (h : inside s s.opr.src.toNat (channels s)) : matchCheck s = none := by
  have hin : s.inBuf s.srcAddr s.channels = true := inBuf_iff.mpr h
  rw [matchCheck, hin, Bool.not_true, firstFailure_pass, firstFailure_nil]

/-- MATCH completes with the sample in RESULT and writes no byte (R80). -/
theorem exec_matchPixel_of_inside {s : State} (h : inside s s.opr.src.toNat (channels s)) :
    exec .matchPixel s
      = .next (complete { s.res with result := placeBit (sample s (pixelAt s s.opr.src.toNat)) 0 } [] s) :=
  command_of_pass (matchCheck_eq_none h) _ [] s

/-- Settles O32: RESULT holds the sample of the pixel at SRC, and the sample is whether that pixel is on. -/
theorem matchSamplesPixel : Obligations.MatchSamplesPixel := by
  unfold Obligations.MatchSamplesPixel
  intro s hinside
  refine ⟨_, exec_matchPixel_of_inside hinside, rfl, fun hon => ?_, fun hoff => ?_⟩
  · have hsample : sample s (pixelAt s s.opr.src.toNat) = true := sample_pixelAt_iff.mpr hon
    rw [complete_res, hsample]
    rfl
  · have hsample : sample s (pixelAt s s.opr.src.toNat) = false :=
      Bool.eq_false_iff.mpr fun hs => hoff (sample_pixelAt_iff.mp hs)
    rw [complete_res, hsample]
    rfl

end Sys2Proof.Proofs
end

section
/-! Commands that read a range at SRC and write a block at DST: their range checks pass (40_command_engine.md R69),
and their completion leaves the block in BUF and nothing else (R70). -/

namespace Sys2Proof.Proofs

open Sys2Proof.Machine Sys2Proof.Claims

/-! ## Checks (R46, R47, R69) -/

theorem rangesBad_eq_false_of_addressable {s : State} {n m : Nat} (h : addressable s n m) :
    s.rangesBad n m = false := by
  obtain ⟨hread, hwrite, -⟩ := h
  exact rangesBad_eq_false.mpr ⟨hread, hwrite⟩

theorem rangesOverlap_eq_false_of_addressable {s : State} {n m : Nat} (h : addressable s n m) :
    s.rangesOverlap n m = false := by
  obtain ⟨-, -, hapart⟩ := h
  exact decide_eq_false hapart

/-- Geometry, addresses and overlap are the three classes these commands check, in this order. -/
theorem firstFailure_eq_none_of_addressable {s : State} {geom : Prop} [Decidable geom] {n m : Nat} (hgeom : ¬ geom)
    (h : addressable s n m) :
    firstFailure [(decide geom, .badGeom), (s.rangesBad n m, .badAddr), (s.rangesOverlap n m, .overlap)] = none := by
  rw [decide_eq_false hgeom, rangesBad_eq_false_of_addressable h, rangesOverlap_eq_false_of_addressable h]
  rfl

/-- Two ranges that are in BUF and do not meet leave room for each other (R46, R47). -/
theorem add_le_of_addressable {s : State} {n m : Nat} (h : addressable s n m) (hn : 0 < n) :
    n + m ≤ s.bufLast.toNat + 1 := by
  obtain ⟨hread, hwrite, hapart⟩ := h
  unfold inside at hread hwrite
  unfold meet at hapart
  omega

/-! ## The block a completion writes (R70) -/

/-- The bytes of BUF from offset `a` on begin with the bytes `bs`. -/
def holdsAt (t : State) (a : Nat) (bs : List Byte) : Prop := ∀ i b, bs[i]? = some b → t.readByte (a + i) = b

theorem holdsAt_complete (r : ResultRegs) (bs : List Byte) (s : State) :
    holdsAt (complete r bs s) s.opr.dst.toNat bs := fun _ _ hb => complete_readByte_inside hb

/-- A completion that writes `n` bytes changes no register but the result registers, STATUS and PENDING, and no other
byte of BUF. -/
theorem complete_frame {r : ResultRegs} {bs : List Byte} {s : State} {n : Nat} (hlen : bs.length = n) :
    finished s (complete r bs s) { r with outlen := BitVec.ofNat 32 n }
      ∧ keepsOutside s (complete r bs s) s.opr.dst.toNat n := by
  subst hlen
  exact ⟨rfl, fun _ hx => complete_readByte_outside hx⟩

/-- A place in `m` rows of `n` is a row and a column. -/
theorem exists_row_column {n m k : Nat} (h : k < n * m) : ∃ r c, r < m ∧ c < n ∧ k = r * n + c := by
  have hn : 0 < n := Nat.pos_of_ne_zero fun h0 => by simp [h0] at h
  exact ⟨k / n, k % n, Nat.div_lt_of_lt_mul h, Nat.mod_lt k hn, (Nat.div_add_mod' k n).symm⟩

end Sys2Proof.Proofs
end

section
/-! PACK and UNPACK (42_pack_unpack.md R81 to R85): the packed bits of a mask, the mask of a packed sprite, and the
round trip. -/

namespace Sys2Proof.Proofs

open Sys2Proof.Machine Sys2Proof.Claims

/-! ## Columns and mask bytes (R49, R81, R82) -/

theorem bitVal_of_lt {m : Nat → Bool} {w : Nat} {pad : Bool} {c : Nat} (h : c < w) : bitVal m w pad c = m c :=
  if_pos h

theorem bitVal_of_le {m : Nat → Bool} {w : Nat} {pad : Bool} {c : Nat} (h : w ≤ c) : bitVal m w pad c = pad :=
  if_neg (Nat.not_lt.mpr h)

theorem maskPixel_iff {s : State} {r c : Nat} :
    maskPixel s r c = true ↔ s.readByte (s.opr.src.toNat + r * s.opr.sprW.toNat + c) ≠ 0 := bne_iff_ne

theorem maskByte_eq_ite (on : Bool) : maskByte on = if on then 1 else 0 := by
  cases on <;> rfl

/-! ## The two commands -/

theorem sized_iff {s : State} : sized s ↔ ¬ (s.spriteW = 0 ∨ s.spriteH = 0) := by
  rw [not_or]
  exact and_congr Nat.pos_iff_ne_zero Nat.pos_iff_ne_zero

theorem exec_pack_of_addressable {s : State} (hsize : sized s) (h : addressable s (maskSpan s) (spriteSpan s)) :
    exec .pack s = .next (complete s.res (packBytes s) s) :=
  command_of_pass (firstFailure_eq_none_of_addressable (sized_iff.mp hsize) h) _ _ s

theorem exec_unpack_of_addressable {s : State} (hsize : sized s) (h : addressable s (spriteSpan s) (maskSpan s)) :
    exec .unpack s = .next (complete s.res (unpackBytes s) s) :=
  command_of_pass (firstFailure_eq_none_of_addressable (sized_iff.mp hsize) h) _ _ s

/-- Settles O33: the byte that holds a column is the packed byte of its row, and bit 7-k of that is column 8j+k. -/
theorem packWritesRows : Obligations.PackWritesRows := by
  unfold Obligations.PackWritesRows
  intro s hsize haddr
  obtain ⟨hfinished, hkeeps⟩ := complete_frame (r := s.res) (length_packBytes s)
  refine ⟨_, exec_pack_of_addressable hsize haddr, hfinished, hkeeps, fun r j k hr hj hk => ?_⟩
  have hbyte := holdsAt_complete s.res (packBytes s) s _ _ (getElem?_packBytes s r j hr hj)
  have hbit := (congrArg (·.getLsbD (7 - k)) hbyte).trans (packByte_bit _ k hk)
  refine ⟨fun hin => ?_, fun hout => ?_⟩
  · rw [← maskPixel_iff, ← bitVal_of_lt (m := maskPixel s r) (pad := s.inverse) hin]
    exact Bool.eq_iff_iff.mp hbit
  · exact hbit.trans (bitVal_of_le hout)

/-- Settles O34: mask byte c of row r is the byte form of the packed pixel. -/
theorem unpackWritesMask : Obligations.UnpackWritesMask := by
  unfold Obligations.UnpackWritesMask
  intro s hsize haddr
  obtain ⟨hfinished, hkeeps⟩ := complete_frame (r := s.res) (length_unpackBytes s)
  refine ⟨_, exec_unpack_of_addressable hsize haddr, hfinished, hkeeps, fun r c hr hc => ?_⟩
  have hbyte := holdsAt_complete s.res (unpackBytes s) s _ _ (getElem?_unpackBytes s r c hr hc)
  exact hbyte.trans (maskByte_eq_ite _)

/-- Settles O46: UNPACK reads column c of a row from the bit where PACK put it, at byte c div 8 and bit 7-(c mod 8). -/
theorem packThenUnpackRestoresMask : Obligations.PackThenUnpackRestoresMask := by
  unfold Obligations.PackThenUnpackRestoresMask
  intro s t u d hsize hpackable hpack hunpackable hunpack k hk
  obtain ⟨t', hpack', -, -, hpacked⟩ := packWritesRows s hsize hpackable
  obtain rfl := Host.Outcome.next.inj (hpack.symm.trans hpack')
  obtain ⟨u', hunpack', -, -, hmask⟩ :=
    unpackWritesMask { t with opr := { s.opr with src := s.opr.dst, dst := d } } hsize hunpackable
  obtain rfl := Host.Outcome.next.inj (hunpack.symm.trans hunpack')
  obtain ⟨r, c, hr, hc, rfl⟩ := exists_row_column hk
  have hcolumn : 8 * (c / 8) + c % 8 = c := Nat.div_add_mod c 8
  obtain ⟨hbit, -⟩ := hpacked r (c / 8) (c % 8) hr (by omega) (Nat.mod_lt c (by omega))
  rw [hcolumn, ← Nat.add_assoc, Nat.add_assoc _ _ c] at hbit
  calc u.readByte (d.toNat + (r * s.opr.sprW.toNat + c))
      = if (t.readByte (s.opr.dst.toNat + r * ((s.opr.sprW.toNat + 7) / 8) + c / 8)).getLsbD (7 - c % 8)
          then 1 else 0 := hmask r c hr hc
    _ = if s.readByte (s.opr.src.toNat + (r * s.opr.sprW.toNat + c)) ≠ 0 then 1 else 0 :=
        if_congr (hbit hc) rfl rfl

end Sys2Proof.Proofs
end

section
/-! ENCODE and SHEET (42_pack_unpack.md R86 to R90): where the sprites stand in the output, and what each of their bits
is. -/

namespace Sys2Proof.Proofs

open Sys2Proof.Machine Sys2Proof.Claims

/-! ## The bits of one sprite (R81, R82, R86, R111) -/

/-- Pixel `k` of a byte comes from pixel `fromPixel f k` of the byte the mirror step takes. -/
theorem mirrorByte_pixel (f : TransformFlags) (b : Byte) {k : Nat} (hk : k < 8) :
    (mirrorByte f b).getLsbD (7 - k) = b.getLsbD (7 - fromPixel f k) := by
  rw [mirrorByte_bit f b k hk]
  simp only [fromPixel, Bool.or_eq_true]
  split
  · rw [show 7 - (7 - k) = k by omega]
  · rfl

theorem fromPixel_lt (f : TransformFlags) {k : Nat} (hk : k < 8) : fromPixel f k < 8 := by
  unfold fromPixel
  split <;> omega

/-- The sprite at `(ox, oy)` of the grid of `s` stands at offset `a` in `t`, bit by bit. -/
def spriteAt (s t : State) (a ox oy : Nat) : Prop :=
  ∀ r j k, r < s.opr.sprH.toNat → j < (s.opr.sprW.toNat + 7) / 8 → k < 8 → spriteBit s t a ox oy r j k

/-- Where BUF holds an encoded sprite, every bit is the sampled pixel or the pad bit of the column and row it comes
from. -/
theorem spriteAt_of_holdsAt {s t : State} {a ox oy : Nat} (hsprite : holdsAt t a (encodeSprite s ox oy)) :
    spriteAt s t a ox oy := by
  intro r j k hr hj hk
  have hbyte := hsprite _ _ (getElem?_encodeSprite s ox oy r j hr hj)
  have hbit := (congrArg (·.getLsbD (7 - k)) hbyte).trans
    ((mirrorByte_pixel _ _ hk).trans (packByte_bit _ _ (fromPixel_lt _ hk)))
  refine ⟨fun hin => ?_, fun hout => ?_⟩
  · exact (Bool.eq_iff_iff.mp (hbit.trans (bitVal_of_lt hin))).trans sample_pixelAt_iff
  · exact hbit.trans (bitVal_of_le hout)

/-! ## ENCODE (R87) -/

theorem exec_encode_of_ready {s : State} (h : encodeReady s) :
    exec .encode s = .next (complete { s.res with count := 1 } (encodeSprite s s.orgX s.orgY) s) := by
  obtain ⟨⟨hw, hh⟩, ⟨hgw, hgh⟩, ⟨hx, hy⟩, haddr⟩ := h
  refine command_of_pass (firstFailure_eq_none_of_addressable ?_ haddr) _ _ s
  unfold State.spriteW State.spriteH State.gridW State.gridH State.orgX State.orgY
  omega

/-- Settles O35: the block ENCODE writes is the encoded sprite at (ORG_X, ORG_Y). -/
theorem encodeWritesSprite : Obligations.EncodeWritesSprite := by
  unfold Obligations.EncodeWritesSprite
  intro s hready
  obtain ⟨hfinished, hkeeps⟩ :=
    complete_frame (r := { s.res with count := 1 }) (length_encodeSprite s s.orgX s.orgY)
  exact ⟨_, exec_encode_of_ready hready, hfinished, hkeeps, spriteAt_of_holdsAt (holdsAt_complete _ _ s)⟩

/-! ## SHEET (R89, R90) -/

theorem tileCols_eq_of_tilesAcross {s : State} {nc : Nat} (hsize : sized s) (h : tilesAcross s nc) :
    s.tileCols = nc := tileCount_unique hsize.1 h

theorem tileRows_eq_of_tilesDown {s : State} {nr : Nat} (hsize : sized s) (h : tilesDown s nr) :
    s.tileRows = nr := tileCount_unique hsize.2 h

/-- Tiles stand at distinct columns, so there are no more of them than the grid has columns. -/
theorem tileCount_le {g o sz gap : Nat} (hs : 0 < sz) : tileCount g o sz gap ≤ g := by
  by_contra hgt
  have hfit := (lt_tileCount_iff (g := g) (o := o) (sz := sz) (gap := gap) (c := g) hs).mp (by omega)
  have : g * 1 ≤ g * (sz + gap) := Nat.mul_le_mul_left g (by omega)
  omega

/-- COUNT holds the number of tiles, since neither axis of the grid has 2^16 of them. -/
theorem tileCols_mul_tileRows_lt {s : State} (hsize : sized s) : s.tileCols * s.tileRows < 2 ^ 32 :=
  calc s.tileCols * s.tileRows
      ≤ s.gridW * s.gridH := Nat.mul_le_mul (tileCount_le hsize.1) (tileCount_le hsize.2)
    _ < 2 ^ 16 * 2 ^ 16 := Nat.mul_lt_mul'' s.opr.gridW.isLt s.opr.gridH.isLt
    _ = 2 ^ 32 := by norm_num

theorem gridBytes_pos {s : State} (h : gridded s) : 0 < gridBytes s :=
  Nat.mul_pos (Nat.mul_pos h.1 h.2) (by unfold channels; split <;> omega)

/-- OUTLEN holds the size of the sheet: BUF has at most 2^32 bytes, and the grid takes some of them. -/
theorem sheetSize_lt {s : State} (hgrid : gridded s) (haddr : addressable s (gridBytes s) s.sheetSize) :
    s.sheetSize < 2 ^ 32 := by
  have hroom := add_le_of_addressable haddr (gridBytes_pos hgrid)
  have hpos := gridBytes_pos hgrid
  have hlast := s.bufLast.isLt
  omega

theorem exec_sheet_of_addressable {s : State} (hsize : sized s) (hgrid : gridded s)
    (haddr : addressable s (gridBytes s) s.sheetSize) :
    exec .sheet s = .next
      (complete { s.res with count := BitVec.ofNat 32 (s.tileCols * s.tileRows) } (sheetBytes s) s) := by
  obtain ⟨hw, hh⟩ := hsize
  obtain ⟨hgw, hgh⟩ := hgrid
  refine command_of_pass (firstFailure_eq_none_of_addressable ?_ haddr) _ _ s
  unfold State.spriteW State.spriteH State.gridW State.gridH
  omega

/-- Where BUF holds a sheet, it holds the sprite of each tile, row-major over the tile grid. -/
theorem holdsAt_tile {s t : State} {a cx cy : Nat} (hsheet : holdsAt t a (sheetBytes s)) (hx : cx < s.tileCols)
    (hy : cy < s.tileRows) :
    holdsAt t (a + (cy * s.tileCols + cx) * s.packedSize) (encodeSprite s (s.tileX cx) (s.tileY cy)) := by
  intro i b hb
  have hi : i < s.packedSize := length_encodeSprite s _ _ ▸ (List.getElem?_eq_some_iff.mp hb).1
  rw [Nat.add_assoc]
  exact hsheet _ _ ((getElem?_sheetBytes s cx cy i hx hy hi).trans hb)

/-- Settles O36: the tile counts are the model's own, both result registers have room for theirs, and the block SHEET
writes holds the sprite of each tile. -/
theorem sheetWritesTiles : Obligations.SheetWritesTiles := by
  unfold Obligations.SheetWritesTiles
  intro s nc nr hacross hdown hready
  obtain ⟨hsize, hgrid, haddr⟩ := hready
  obtain rfl := tileCols_eq_of_tilesAcross hsize hacross
  obtain rfl := tileRows_eq_of_tilesDown hsize hdown
  obtain ⟨hfinished, hkeeps⟩ := complete_frame
    (r := { s.res with count := BitVec.ofNat 32 (s.tileCols * s.tileRows) }) (length_sheetBytes s)
  refine ⟨_, exec_sheet_of_addressable hsize hgrid haddr, rfl, rfl, ?_, ?_, hkeeps, ?_⟩
  · exact (BitVec.toNat_ofNat _ _).trans (Nat.mod_eq_of_lt (tileCols_mul_tileRows_lt hsize))
  · rw [complete_res, length_sheetBytes]
    exact (BitVec.toNat_ofNat _ _).trans (Nat.mod_eq_of_lt (sheetSize_lt hgrid haddr))
  · intro cx cy r j k hx hy
    exact spriteAt_of_holdsAt (holdsAt_tile (holdsAt_complete _ _ s) hx hy) r j k

end Sys2Proof.Proofs
end

section
/-! INVERSE as the complement of a sprite with no transparent pixel (42_pack_unpack.md R91). -/

namespace Sys2Proof.Proofs

open Sys2Proof.Machine Sys2Proof.Claims

/-- No sampled pixel of the sprite at `(ox, oy)` is transparent (41_color_match.md R77). -/
def noneTransparent (s : State) (ox oy : Nat) : Prop :=
  s.opr.ch4 = true → ∀ r c, r < s.opr.sprH.toNat → c < s.opr.sprW.toNat →
    s.opr.alphaThr.toNat ≤ (s.readByte (gridOffset s (ox + c) (oy + r) + 3)).toNat

theorem pixelOn_iff_of_not_transparent {s : State} {a : Nat}
    (h : s.opr.ch4 = true → s.opr.alphaThr.toNat ≤ (s.readByte (a + 3)).toNat) :
    pixelOn s a ↔ (matchRgb s (pixelAt s a).rgb = true ↔ s.opr.flags.inverse = true) := by
  rw [matchRgb_iff]
  exact and_iff_left fun ⟨hch, hlt⟩ => Nat.not_lt.mpr (h hch) hlt

/-- A pixel that is not transparent is on with INVERSE exactly when it is off without (R76, R77). -/
theorem pixelOn_inverse_iff {s : State} {f : TransformFlags} {a : Nat}
    (h : s.opr.ch4 = true → s.opr.alphaThr.toNat ≤ (s.readByte (a + 3)).toNat) :
    pixelOn (withFlags s { f with inverse := true }) a ↔ ¬ pixelOn (withFlags s { f with inverse := false }) a := by
  rw [pixelOn_iff_of_not_transparent (s := withFlags s { f with inverse := true }) h,
    pixelOn_iff_of_not_transparent (s := withFlags s { f with inverse := false }) h]
  change (matchRgb s (pixelAt s a).rgb = true ↔ true = true)
    ↔ ¬ (matchRgb s (pixelAt s a).rgb = true ↔ false = true)
  cases matchRgb s (pixelAt s a).rgb <;> simp

theorem fromRow_lt (f : TransformFlags) {h r : Nat} (hr : r < h) : fromRow f h r < h := by
  unfold fromRow
  split <;> omega

/-- The two bits come from the same column: a pixel, which INVERSE flips, or a pad bit, which is INVERSE. -/
theorem spriteBit_complement {s t u : State} {f : TransformFlags} {a ox oy r j k : Nat}
    (ht : spriteBit (withFlags s { f with inverse := false }) t a ox oy r j k)
    (hu : spriteBit (withFlags s { f with inverse := true }) u a ox oy r j k)
    (hplain : noneTransparent s ox oy) (hr : r < s.opr.sprH.toNat) :
    (u.readByte (a + (r * ((s.opr.sprW.toNat + 7) / 8) + j))).getLsbD (7 - k)
      = !(t.readByte (a + (r * ((s.opr.sprW.toNat + 7) / 8) + j))).getLsbD (7 - k) := by
  obtain ⟨htpixel, htpad⟩ := ht
  obtain ⟨hupixel, hupad⟩ := hu
  rcases Nat.lt_or_ge (8 * fromByte f ((s.opr.sprW.toNat + 7) / 8) j + fromPixel f k) s.opr.sprW.toNat with hin | hout
  · have hflip := pixelOn_inverse_iff (f := f) fun hch => hplain hch _ _ (fromRow_lt f hr) hin
    rw [Bool.eq_iff_iff, Bool.not_eq_true', ← Bool.not_eq_true]
    exact (hupixel hin).trans (hflip.trans (not_congr (htpixel hin)).symm)
  · exact (hupad hout).trans (congrArg (!·) (htpad hout)).symm

/-- The two forms of one sprite are complements byte by byte (R91). -/
theorem spriteAt_complement {s t u : State} {f : TransformFlags} {a ox oy i : Nat}
    (ht : spriteAt (withFlags s { f with inverse := false }) t a ox oy)
    (hu : spriteAt (withFlags s { f with inverse := true }) u a ox oy)
    (hplain : noneTransparent s ox oy) (hi : i < spriteSpan s) : u.readByte (a + i) = ~~~ t.readByte (a + i) := by
  obtain ⟨r, j, hr, hj, rfl⟩ := exists_row_column hi
  refine byte_ext fun k hk => ?_
  rw [BitVec.getLsbD_not, decide_eq_true (show 7 - k < 8 by omega), Bool.true_and]
  exact spriteBit_complement (ht r j k hr hj hk) (hu r j k hr hj hk) hplain hr

/-- Settles O47: both runs write the sprite of the same pixels. -/
theorem inverseComplementsSprite : Obligations.InverseComplementsSprite := by
  unfold Obligations.InverseComplementsSprite
  intro s t u f hready hplain hplainRun hinverseRun k hk
  obtain ⟨t', ht', -, -, htbits⟩ := encodeWritesSprite (withFlags s { f with inverse := false }) hready
  obtain ⟨u', hu', -, -, hubits⟩ := encodeWritesSprite (withFlags s { f with inverse := true }) hready
  obtain rfl := Host.Outcome.next.inj (hplainRun.symm.trans ht')
  obtain rfl := Host.Outcome.next.inj (hinverseRun.symm.trans hu')
  exact spriteAt_complement htbits hubits hplain hk

/-- Settles O48: a byte of the sheet stands in the sprite of one tile, and both runs write that sprite there. -/
theorem inverseComplementsSheet : Obligations.InverseComplementsSheet := by
  unfold Obligations.InverseComplementsSheet
  intro s t u f nc nr hacross hdown hready hplain hplainRun hinverseRun k hk
  obtain ⟨t', ht', -, -, -, -, -, htbits⟩ :=
    sheetWritesTiles (withFlags s { f with inverse := false }) nc nr hacross hdown hready
  obtain ⟨u', hu', -, -, -, -, -, hubits⟩ :=
    sheetWritesTiles (withFlags s { f with inverse := true }) nc nr hacross hdown hready
  obtain rfl := Host.Outcome.next.inj (hplainRun.symm.trans ht')
  obtain rfl := Host.Outcome.next.inj (hinverseRun.symm.trans hu')
  obtain ⟨tile, i, htile, hi, rfl⟩ := exists_row_column (Nat.mul_comm (nc * nr) (spriteSpan s) ▸ hk)
  obtain ⟨cy, cx, hy, hx, rfl⟩ := exists_row_column htile
  rw [← Nat.add_assoc]
  exact spriteAt_complement (fun r j k => htbits cx cy r j k hx hy) (fun r j k => hubits cx cy r j k hx hy)
    (fun hch r c => hplain hch cx cy r c hx hy) hi

end Sys2Proof.Proofs
end

section
/-! PIXIDX (43_decode_palette.md R92 to R95, R99): each bit of a palette index is the byte bit of the table of R95. -/

namespace Sys2Proof.Proofs

open Sys2Proof.Machine Sys2Proof.Claims

/-! ## Modes -/

/-- The legal modes (R29, R69). -/
theorem mode_cases {m : BitVec 2} (h : m ≠ 3) : m = 0 ∨ m = 1 ∨ m = 2 := by
  revert m
  decide

theorem modeBad_eq_false {s : State} (h : s.opr.mode.mode ≠ 3) : modeBad s = false := beq_eq_false_iff_ne.mpr h

theorem pixelsPerByte_eq_perByte {m : BitVec 2} (h : m ≠ 3) : pixelsPerByte m = perByte m.toNat := by
  rcases mode_cases h with rfl | rfl | rfl <;> rfl

theorem pixelsPerByte_pos {m : BitVec 2} (h : m ≠ 3) : 0 < pixelsPerByte m := by
  rcases mode_cases h with rfl | rfl | rfl <;> decide

/-! ## The bits of an index (R95) -/

/-- Bit `q` of the index of slot `i` of byte `b`, as the table of R95 gives it. -/
def tableBit (m : Nat) (b : Byte) (i q : Nat) : Bool := (indexBit m q).elim false fun p => b.getLsbD (p - i)

/-- A nibble whose four bits are those of `f`. -/
theorem getLsbD_nibble_eq {f : Nat → Bool} {b3 b2 b1 b0 : Bool} (h0 : b0 = f 0) (h1 : b1 = f 1) (h2 : b2 = f 2)
    (h3 : b3 = f 3) (hrest : ∀ q, f (q + 4) = false) (q : Nat) : (nibble b3 b2 b1 b0).getLsbD q = f q := by
  rw [getLsbD_nibble]
  match q with
  | 0 => exact h0
  | 1 => exact h1
  | 2 => exact h2
  | 3 => exact h3
  | q + 4 => exact (hrest q).symm

theorem idx0_bit (b : Byte) {i : Nat} (hi : i < 2) (q : Nat) : (idx0 b i).getLsbD q = tableBit 0 b i q := by
  match i, hi with
  | 0, _ => exact getLsbD_nibble_eq (f := tableBit 0 b 0) rfl rfl rfl rfl (fun _ => rfl) q
  | 1, _ => exact getLsbD_nibble_eq (f := tableBit 0 b 1) rfl rfl rfl rfl (fun _ => rfl) q

theorem idx1_bit (b : Byte) (i q : Nat) : (idx1 b i).getLsbD q = tableBit 1 b i q :=
  getLsbD_nibble_eq (f := tableBit 1 b i) rfl rfl rfl rfl (fun _ => rfl) q

theorem idx2_bit (b : Byte) (i q : Nat) : (idx2 b i).getLsbD q = tableBit 2 b i q :=
  getLsbD_nibble_eq (f := tableBit 2 b i) rfl rfl rfl rfl (fun _ => rfl) q

/-- The bits of a pixel slot that the mode has. -/
theorem pixelIndex_bit {m : BitVec 2} {i : Nat} (hi : i < pixelsPerByte m) (b : Byte) (q : Nat) :
    (pixelIndex m b i).getLsbD q = tableBit m.toNat b i q := by
  have hm : m ≠ 3 := by
    rintro rfl
    exact absurd hi (Nat.not_lt_zero i)
  rcases mode_cases hm with rfl | rfl | rfl
  · exact idx0_bit b hi q
  · exact idx1_bit b i q
  · exact idx2_bit b i q

/-! ## PIXIDX (R99) -/

/-- One bit of a nibble that is put in place: its own in its slot, and 0 in the other slots. -/
theorem getLsbD_place_nibble (x : BitVec 4) (n : Nat) {i q : Nat} (hi : i < 8) (hq : q < 4) :
    (place x (4 * n)).getLsbD (4 * i + q) = (decide (i = n) && x.getLsbD q) := by
  rw [getLsbD_place, decide_eq_true (show 4 * i + q < 32 by omega), Bool.true_and]
  rcases Nat.lt_trichotomy i n with h | rfl | h
  · rw [decide_eq_false (show ¬ 4 * n ≤ 4 * i + q by omega), decide_eq_false h.ne, Bool.false_and, Bool.false_and]
  · rw [Nat.add_sub_cancel_left, decide_eq_true (Nat.le_add_right _ q), decide_eq_true rfl]
  · rw [BitVec.getLsbD_of_ge x _ (by omega), decide_eq_false h.ne', Bool.and_false, Bool.false_and]

/-- Nibbles put in place one after the other: bit `q` of slot `i` is that of nibble `i`. -/
theorem getLsbD_foldl_place (f : Nat → BitVec 4) (n : Nat) {i q : Nat} (hi : i < 8) (hq : q < 4) :
    ((List.range n).foldl (fun r k => r ||| place (f k) (4 * k)) (0 : Word)).getLsbD (4 * i + q)
      = (decide (i < n) && (f i).getLsbD q) := by
  induction n with
  | zero => simp
  | succ n ih =>
    rw [List.range_succ, List.foldl_append, List.foldl_cons, List.foldl_nil, BitVec.getLsbD_or, ih,
      getLsbD_place_nibble _ n hi hq]
    rcases eq_or_ne i n with rfl | hne
    · simp
    · rw [decide_eq_false hne, Bool.false_and, Bool.or_false,
        decide_eq_decide.mpr (show i < n ↔ i < n + 1 by omega)]

theorem getLsbD_packIndices (m : BitVec 2) (b : Byte) {i q : Nat} (hi : i < 8) (hq : q < 4) :
    (packIndices m b).getLsbD (4 * i + q) = (decide (i < pixelsPerByte m) && tableBit m.toNat b i q) := by
  refine (getLsbD_foldl_place (pixelIndex m b) (pixelsPerByte m) hi hq).trans ?_
  by_cases h : i < pixelsPerByte m
  · rw [pixelIndex_bit h]
  · rw [decide_eq_false h, Bool.false_and, Bool.false_and]

theorem indexBit_lt {m q p : Nat} (h : indexBit m q = some p) : p < 8 := by
  unfold indexBit at h
  split at h <;> cases h <;> decide

/-- The byte of PIXIDX is the low byte of ARG. -/
theorem tableBit_field (m : Nat) (v : Word) (i q : Nat) :
    tableBit m (field v 0 8) i q = (indexBit m q).elim false fun p => v.getLsbD (p - i) := by
  unfold tableBit
  cases h : indexBit m q with
  | none => rfl
  | some p =>
    have hp := indexBit_lt h
    simp [show p - i < 8 by omega]

theorem exec_pixidx_of_legal {s : State} (h : s.opr.mode.mode ≠ 3) :
    exec .pixidx s
      = .next (complete { s.res with result := packIndices s.opr.mode.mode (field s.opr.arg 0 8) } [] s) := by
  refine command_of_pass ?_ _ [] s
  rw [pixidxCheck, modeBad_eq_false h, firstFailure_pass, firstFailure_nil]

/-- Settles O42: RESULT is the nibbles of the slots, and the bits of each are those of the table. -/
theorem pixidxExtractsIndices : Obligations.PixidxExtractsIndices := by
  unfold Obligations.PixidxExtractsIndices
  intro s hmode
  refine ⟨_, exec_pixidx_of_legal hmode, rfl, fun i q hi hq => ?_⟩
  refine (getLsbD_packIndices s.opr.mode.mode (field s.opr.arg 0 8) hi hq).trans ?_
  rw [tableBit_field, pixelsPerByte_eq_perByte hmode]
  cases indexBit s.opr.mode.mode.toNat q with
  | none => exact Bool.and_false _
  | some p => rfl

end Sys2Proof.Proofs
end

section
/-! The effective palette and PALLOOK (43_decode_palette.md R97, R98, R100). -/

namespace Sys2Proof.Proofs

open Sys2Proof.Machine Sys2Proof.Claims

/-! ## The two palette levels (R97) -/

theorem hwEntry_of_lt {s : State} {code : BitVec 5} (h : code.toNat < Config.hwpalSize) :
    s.hwEntry code = s.hwpal[code.toNat] := dif_pos h

/-- An index has a colour where both of its entries are defined. -/
theorem effective_of_defined {s : State} {i : BitVec 4}
    (h : (s.inkEntry i).v = true ∧ (s.hwEntry (s.inkEntry i).code).v = true) :
    effective s i = some (s.hwEntry (s.inkEntry i).code).rgb := by
  obtain ⟨hink, hhw⟩ := h
  simp only [effective, hink, hhw, if_true]

theorem effective_of_undefined {s : State} {i : BitVec 4}
    (h : ¬ ((s.inkEntry i).v = true ∧ (s.hwEntry (s.inkEntry i).code).v = true)) : effective s i = none := by
  unfold effective
  by_cases hink : (s.inkEntry i).v = true
  · simp only [hink, if_true, if_neg fun hhw => h ⟨hink, hhw⟩]
  · simp only [if_neg hink]

/-! ## PALLOOK (R100) -/

theorem paletteWord_some_toNat (c : Rgb) :
    (paletteWord (some c)).toNat = 0x1000000 + c.r.toNat * 0x10000 + c.g.toNat * 0x100 + c.b.toNat := by
  have hword := rgbWord_toNat c
  have hr := c.r.isLt
  have hg := c.g.isLt
  have hb := c.b.isLt
  calc (paletteWord (some c)).toNat
      = (rgbWord c ||| placeBit true 24).toNat := congrArg BitVec.toNat (BitVec.or_comm _ _)
    _ = (rgbWord c).toNat + 2 ^ 24 * true.toNat := or_placeBit_toNat true (by omega) (by omega)
    _ = _ := by rw [hword, Bool.toNat_true]; omega

theorem paletteWord_none : paletteWord none = 0 := rfl

theorem exec_pallook_of_lt {s : State} (h : s.opr.arg.toNat < 16) :
    exec .pallook s
      = .next (complete { s.res with result := paletteWord (effective s (field s.opr.arg 0 4)) } [] s) := by
  refine command_of_pass ?_ _ [] s
  rw [pallookCheck, decide_eq_false (show ¬ 15 < s.opr.arg.toNat by omega), firstFailure_pass, firstFailure_nil]

theorem inkEntry_field {s : State} (h : s.opr.arg.toNat < 16) :
    s.inkEntry (field s.opr.arg 0 4) = s.inkmap[s.opr.arg.toNat] := by
  have hindex : (field s.opr.arg 0 4).toNat = s.opr.arg.toNat := by
    simp [field, Nat.mod_eq_of_lt h]
  simp only [State.inkEntry, hindex]

/-- Settles O41: RESULT is the looked-up colour of the ink ARG, and that is found where both entries are defined. -/
theorem pallookLooksUpInk : Obligations.PallookLooksUpInk := by
  unfold Obligations.PallookLooksUpInk
  intro s ha e hc he
  have hink : s.inkEntry (field s.opr.arg 0 4) = e := (inkEntry_field ha).trans he.symm
  have hhw : s.hwEntry (s.inkEntry (field s.opr.arg 0 4)).code = s.hwpal[e.code.toNat] := by
    rw [hink, hwEntry_of_lt hc]
  refine ⟨_, exec_pallook_of_lt ha, rfl, fun hdef => ?_, fun hundef => ?_⟩
  · have hcolour : effective s (field s.opr.arg 0 4) = some s.hwpal[e.code.toNat].rgb := by
      rw [← hhw]
      exact effective_of_defined (by rwa [hhw, hink])
    rw [complete_res, hcolour]
    exact paletteWord_some_toNat _
  · have hcolour : effective s (field s.opr.arg 0 4) = none := effective_of_undefined (by rwa [hhw, hink])
    rw [complete_res, hcolour]
    exact paletteWord_none

end Sys2Proof.Proofs
end

section
/-! DECODE (43_decode_palette.md R101 to R103): which colour stands at each pixel of the grid. -/

namespace Sys2Proof.Proofs

open Sys2Proof.Machine Sys2Proof.Claims

/-! ## The size of the grid (R102) -/

theorem gridOf_eq {m : BitVec 2} (h : m ≠ 3) (n : Nat) : gridOf m.toNat n = (outWidth m, outHeight m n) := by
  rcases mode_cases h with rfl | rfl | rfl
  · exact congrArg (Prod.mk 320) (Nat.one_mul n).symm
  · exact congrArg (Prod.mk 320) (Nat.one_mul n).symm
  · rfl

theorem gridSpan_eq_decodeSize {s : State} (h : s.opr.mode.mode ≠ 3) : gridSpan s = s.decodeSize := by
  rw [gridSpan, gridOf_eq h]
  rfl

theorem outWidth_eq (m : BitVec 2) : outWidth m = pixelCopies m * (pixelsPerByte m * 80) := by
  revert m
  decide

/-- Mode 2 duplicates each row. -/
theorem div_rowCopies (m : BitVec 2) (y : Nat) : y / rowCopies m = if m.toNat = 2 then y / 2 else y := by
  unfold rowCopies
  split
  · rfl
  · exact Nat.div_one y

/-- Mode 0 duplicates each column. -/
theorem div_pixelCopies (m : BitVec 2) (x : Nat) : x / pixelCopies m = if m.toNat = 0 then x / 2 else x := by
  unfold pixelCopies
  split
  · rfl
  · exact Nat.div_one x

/-! ## The colour of a pixel (R95, R97, R98) -/

/-- The colour DECODE gives grid pixel `(x, y)`: that of the index in the slot the pixel comes from. -/
def gridColour (s : State) (x y : Nat) : Rgb :=
  effectiveRgb s (pixelIndex s.opr.mode.mode
    (s.readByte (lineAddr s (y / rowCopies s.opr.mode.mode)
      + x / pixelCopies s.opr.mode.mode / pixelsPerByte s.opr.mode.mode))
    (x / pixelCopies s.opr.mode.mode % pixelsPerByte s.opr.mode.mode))

/-- An output column is a source byte, a slot of it and a copy of that. -/
theorem column_offset (x c p e : Nat) :
    x / c / p * (p * (c * 3)) + (x / c % p * (c * 3) + (x % c * 3 + e)) = x * 3 + e := by
  calc x / c / p * (p * (c * 3)) + (x / c % p * (c * 3) + (x % c * 3 + e))
      = ((x / c / p * p + x / c % p) * c + x % c) * 3 + e := by ring
    _ = x * 3 + e := by rw [Nat.div_add_mod', Nat.div_add_mod']

/-- Where BUF holds a decoded grid, it holds the three channels of each pixel's colour. -/
theorem holdsAt_gridColour {s t : State} {a x y : Nat} (hgrid : holdsAt t a (decodeBytes s))
    (hx : x < outWidth s.opr.mode.mode) (hy : y < outHeight s.opr.mode.mode s.lineCount) :
    holdsAt t (a + (y * outWidth s.opr.mode.mode + x) * 3) (rgbBytes (gridColour s x y)) := by
  intro e b hb
  have he : e < 3 := (List.getElem?_eq_some_iff.mp hb).1
  rw [outWidth_eq] at hx
  have hcopies : 0 < pixelCopies s.opr.mode.mode := Nat.pos_of_mul_pos_right (Nat.zero_lt_of_lt hx)
  have hpixel := Nat.div_lt_of_lt_mul hx
  have hslots : 0 < pixelsPerByte s.opr.mode.mode := Nat.pos_of_mul_pos_right (Nat.zero_lt_of_lt hpixel)
  have hrows : 0 < rowCopies s.opr.mode.mode := Nat.pos_of_mul_pos_right (Nat.zero_lt_of_lt hy)
  have hbyte := getElem?_decodeBytes s _ _ _ _ _ e (Nat.div_lt_of_lt_mul hy) (Nat.mod_lt y hrows)
    (Nat.div_lt_of_lt_mul hpixel) (Nat.mod_lt (x / pixelCopies s.opr.mode.mode) hslots) (Nat.mod_lt x hcopies) he
  rw [Nat.div_add_mod', column_offset, ← Nat.mul_assoc, ← Nat.add_assoc, ← Nat.add_mul] at hbyte
  rw [Nat.add_assoc]
  exact hgrid _ _ (hbyte.trans hb)

theorem rgb_of_holdsAt {t : State} {a : Nat} {c : Rgb} (h : holdsAt t a (rgbBytes c)) :
    ({ r := t.readByte a, g := t.readByte (a + 1), b := t.readByte (a + 2) } : Rgb) = c := by
  have hr : t.readByte a = c.r := h 0 c.r rfl
  have hg : t.readByte (a + 1) = c.g := h 1 c.g rfl
  have hb : t.readByte (a + 2) = c.b := h 2 c.b rfl
  rw [hr, hg, hb]

theorem effectiveRgb_eq_ite (s : State) (i : BitVec 4) :
    effectiveRgb s i = if (s.inkEntry i).v = true ∧ (s.hwEntry (s.inkEntry i).code).v = true
      then (s.hwEntry (s.inkEntry i).code).rgb else { r := 0, g := 0, b := 0 } := by
  unfold effectiveRgb
  split
  · next h => rw [effective_of_defined h, Option.getD_some]
  · next h => rw [effective_of_undefined h, Option.getD_none]; rfl

/-- Every INKMAP entry names an entry of HWPAL (R37). -/
theorem inkEntry_code_lt {s : State} (h : s.inkCodesLegal = true) (i : BitVec 4) :
    (s.inkEntry i).code.toNat < Config.hwpalSize := by
  simp only [State.inkCodesLegal, List.all_eq_true, decide_eq_true_eq, Vector.mem_toList_iff] at h
  exact Nat.lt_succ_of_le (h _ (Vector.getElem_mem i.isLt))

theorem pixelColour_pixelIndex {s : State} {m : BitVec 2} {i : Nat} (hlegal : s.inkCodesLegal = true)
    (hi : i < pixelsPerByte m) (b : Byte) :
    pixelColour s m.toNat b i (effectiveRgb s (pixelIndex m b i)) := by
  have hcode := inkEntry_code_lt hlegal (pixelIndex m b i)
  refine ⟨(pixelIndex m b i).toNat, s.inkEntry (pixelIndex m b i), s.hwEntry (s.inkEntry (pixelIndex m b i)).code,
    Vector.getElem?_eq_getElem _, ?_, fun q _ => ?_, effectiveRgb_eq_ite s _⟩
  · rw [hwEntry_of_lt hcode]
    exact Vector.getElem?_eq_getElem hcode
  · refine (pixelIndex_bit hi b q).trans ?_
    unfold tableBit
    cases indexBit m.toNat q <;> rfl

/-- The pixel a grid pixel comes from has the colour the palette gives it, in the words of the rules. -/
theorem pixelColour_gridColour {s : State} (hmode : s.opr.mode.mode ≠ 3) (hlegal : s.inkCodesLegal = true)
    (x y : Nat) :
    pixelColour s s.opr.mode.mode.toNat
      (s.readByte (lineFrom s (if s.opr.mode.mode.toNat = 2 then y / 2 else y)
        + (if s.opr.mode.mode.toNat = 0 then x / 2 else x) / perByte s.opr.mode.mode.toNat))
      ((if s.opr.mode.mode.toNat = 0 then x / 2 else x) % perByte s.opr.mode.mode.toNat) (gridColour s x y) := by
  rw [← div_rowCopies, ← div_pixelCopies, ← pixelsPerByte_eq_perByte hmode]
  exact pixelColour_pixelIndex hlegal (Nat.mod_lt _ (pixelsPerByte_pos hmode)) _

/-! ## DECODE (R103) -/

/-- The result registers of DECODE but for OUTLEN. -/
def decodeResults (s : State) : ResultRegs :=
  { s.res with
    outW := BitVec.ofNat 32 (outWidth s.opr.mode.mode)
    outH := BitVec.ofNat 32 (outHeight s.opr.mode.mode s.lineCount) }

theorem exec_decode_of_ready {s : State} (h : decodeReady s) :
    exec .decode s = .next (complete (decodeResults s) (decodeBytes s) s) := by
  obtain ⟨hmode, hlines, hbanked, haddr⟩ := h
  rw [gridSpan_eq_decodeSize hmode] at haddr
  refine command_of_pass ?_ _ _ s
  rw [decodeCheck, modeBad_eq_false hmode, firstFailure_pass]
  refine firstFailure_eq_none_of_addressable ?_ haddr
  rintro (hzero | ⟨hdeint, hmany⟩)
  · exact hlines.ne' hzero
  · exact Nat.not_lt.mpr (hbanked hdeint) hmany

/-- Settles O40: the block DECODE writes holds the colour of each grid pixel. -/
theorem decodeWritesGrid : Obligations.DecodeWritesGrid := by
  unfold Obligations.DecodeWritesGrid
  intro s hready
  have ⟨hmode, _⟩ := hready
  simp only [gridSpan_eq_decodeSize hmode, gridOf_eq hmode]
  obtain ⟨hfinished, hkeeps⟩ := complete_frame (r := decodeResults s) (length_decodeBytes s)
  refine ⟨_, exec_decode_of_ready hready, hfinished, hkeeps, fun hlegal x y hx hy => ?_⟩
  rw [rgb_of_holdsAt (holdsAt_gridColour (holdsAt_complete (decodeResults s) _ s) hx hy)]
  exact pixelColour_gridColour hmode hlegal x y

end Sys2Proof.Proofs
end

section
/-! The banked form of DECODE (43_decode_palette.md R101): DEINT puts each scanline where the linear form reads it. -/

namespace Sys2Proof.Proofs

open Sys2Proof.Machine Sys2Proof.Claims

/-! ## DEINT as a step before DECODE (44_deinterleave.md R104, R107) -/

theorem exec_deint_of_addressable {s : State} (h : addressable s 16384 16384) :
    exec .deint s = .next (complete s.res (deintLines s ++ deintTail s) s) :=
  command_of_pass (firstFailure_eq_none_of_addressable (geom := False) not_false h) _ _ s

/-- DEINT to `scratch` keeps the palette and leaves its output there. -/
theorem deint_keeps_palette_holdsAt {s u : State} {scratch : Word}
    (haddr : addressable { s with opr := { s.opr with dst := scratch } } 16384 16384)
    (h : exec .deint { s with opr := { s.opr with dst := scratch } } = .next u) :
    u.hwpal = s.hwpal ∧ u.inkmap = s.inkmap ∧ holdsAt u scratch.toNat (deintLines s ++ deintTail s) := by
  obtain rfl := Host.Outcome.next.inj (h.symm.trans (exec_deint_of_addressable haddr))
  exact ⟨rfl, rfl, holdsAt_complete _ _ { s with opr := { s.opr with dst := scratch } }⟩

/-- Where BUF holds the output of DEINT, it holds the scanlines one after the other. -/
theorem readByte_deintLine {s u : State} {a l x : Nat} (h : holdsAt u a (deintLines s ++ deintTail s)) (hl : l < 200)
    (hx : x < 80) : u.readByte (a + 80 * l + x) = s.readByte (s.srcAddr + bankedLine l + x) := by
  have hsource : deintSource (80 * l + x) = bankedLine l + x := by
    rw [deintSource, if_pos (by omega), show (80 * l + x) / 80 = l by omega, show (80 * l + x) % 80 = x by omega]
  have hbyte := h _ _ (getElem?_deint s (80 * l + x) (by omega))
  rwa [hsource, ← Nat.add_assoc, ← Nat.add_assoc] at hbyte

/-! ## What the grid depends on -/

/-- `s` and `s'` decode scanlines of the same bytes in the same mode through the same palette. -/
def sameScreen (s s' : State) : Prop :=
  s'.opr.mode.mode = s.opr.mode.mode ∧ s'.opr.lines = s.opr.lines ∧ s'.hwpal = s.hwpal ∧ s'.inkmap = s.inkmap
    ∧ ∀ l < s.lineCount, ∀ x < 80, s'.readByte (lineAddr s' l + x) = s.readByte (lineAddr s l + x)

/-- The colour of an index depends on the two palette levels alone (R97). -/
theorem effectiveRgb_congr {s s' : State} (hhw : s'.hwpal = s.hwpal) (hink : s'.inkmap = s.inkmap) :
    effectiveRgb s' = effectiveRgb s := by
  have hhwEntry : s'.hwEntry = s.hwEntry := by
    funext code
    rw [State.hwEntry, hhw, State.hwEntry]
  have hinkEntry : s'.inkEntry = s.inkEntry := by
    funext i
    rw [State.inkEntry, hink, State.inkEntry]
  funext i
  rw [effectiveRgb, effectiveRgb, effective, effective, hhwEntry, hinkEntry]

theorem decodeByte_congr {s s' : State} (hmode : s'.opr.mode.mode = s.opr.mode.mode) (hhw : s'.hwpal = s.hwpal)
    (hink : s'.inkmap = s.inkmap) : decodeByte s' = decodeByte s := by
  funext b
  rw [decodeByte, decodeByte, hmode, effectiveRgb_congr hhw hink]

theorem decodeBytes_of_sameScreen {s s' : State} (h : sameScreen s s') : decodeBytes s' = decodeBytes s := by
  obtain ⟨hmode, hlines, hhw, hink, hscreen⟩ := h
  have hrow : ∀ l < s.lineCount, decodeRow s' l = decodeRow s l := fun l hl =>
    List.flatMap_congr fun x hx => by
      rw [decodeByte_congr hmode hhw hink, hscreen l hl x (List.mem_range.mp hx)]
  rw [decodeBytes, decodeBytes, hmode, show s'.lineCount = s.lineCount from congrArg BitVec.toNat hlines]
  exact List.flatMap_congr fun l hl => by rw [hrow l (List.mem_range.mp hl)]

/-- The same screen decoded to the same place gives the same grid, of the same size. -/
theorem decode_of_sameScreen {s s' t t' : State} (hready : decodeReady s) (hready' : decodeReady s')
    (h : exec .decode s = .next t) (h' : exec .decode s' = .next t') (hsame : sameScreen s s')
    (hdst : s'.opr.dst = s.opr.dst) :
    t'.res.outW = t.res.outW ∧ t'.res.outH = t.res.outH ∧ t'.res.outlen = t.res.outlen
      ∧ ∀ k < gridSpan s, t'.readByte (s.opr.dst.toNat + k) = t.readByte (s.opr.dst.toNat + k) := by
  obtain rfl := Host.Outcome.next.inj (h.symm.trans (exec_decode_of_ready hready))
  obtain rfl := Host.Outcome.next.inj (h'.symm.trans (exec_decode_of_ready hready'))
  have hbytes := decodeBytes_of_sameScreen hsame
  have ⟨hlegal, _⟩ := hready
  have hheld := holdsAt_complete (decodeResults s') (decodeBytes s') s'
  obtain ⟨hmode, hlines, -⟩ := hsame
  rw [hbytes, hdst] at hheld
  rw [hbytes]
  refine ⟨?_, ?_, rfl, fun k hk => ?_⟩
  · exact congrArg (BitVec.ofNat 32 ∘ outWidth) hmode
  · exact congrArg₂ (fun m n => BitVec.ofNat 32 (outHeight m (BitVec.toNat n))) hmode hlines
  · have hbyte := List.getElem?_eq_getElem (l := decodeBytes s) (i := k)
      (by rwa [length_decodeBytes, ← gridSpan_eq_decodeSize hlegal])
    exact (hheld k _ hbyte).trans (holdsAt_complete (decodeResults s) (decodeBytes s) s k _ hbyte).symm

/-! ## The banked form and the linear form (R101) -/

/-- `u` with the operands of `s`, but reading a linear screen at `scratch`. -/
def linearAt (s u : State) (scratch : Word) : State :=
  { u with opr := { s.opr with src := scratch, mode := { s.opr.mode with deint := false } } }

/-- After DEINT the linear form finds at `scratch` the scanlines that the banked form finds at SRC. -/
theorem sameScreen_linearAt {s u : State} {scratch : Word} (hbanked : s.opr.mode.deint = true)
    (hlines : s.opr.lines.toNat ≤ 200) (hhw : u.hwpal = s.hwpal) (hink : u.inkmap = s.inkmap)
    (hscratch : holdsAt u scratch.toNat (deintLines s ++ deintTail s)) : sameScreen s (linearAt s u scratch) := by
  refine ⟨rfl, rfl, hhw, hink, fun l hl x hx => ?_⟩
  have haddr : lineAddr s l = s.srcAddr + bankedLine l := congrArg (s.srcAddr + ·) (if_pos hbanked)
  rw [haddr]
  exact readByte_deintLine hscratch (hl.trans_le hlines) hx

/-- Settles O52: both ways decode the same screen to the same place. -/
theorem decodeBankedEqualsDeintThenDecode : Obligations.DecodeBankedEqualsDeintThenDecode := by
  unfold Obligations.DecodeBankedEqualsDeintThenDecode
  intro s t u v scratch hbanked hready hdecode haddr hdeint hready' hdecode'
  obtain ⟨hhw, hink, hscratch⟩ := deint_keeps_palette_holdsAt haddr hdeint
  have ⟨_, _, hlines, _⟩ := hready
  exact decode_of_sameScreen (s' := linearAt s u scratch) hready hready' hdecode hdecode'
    (sameScreen_linearAt hbanked (hlines hbanked) hhw hink hscratch) rfl

end Sys2Proof.Proofs
end

section
/-! DEINT (44_deinterleave.md R104 to R108): where each byte of a screen dump goes, and that all of them do. -/

namespace Sys2Proof.Proofs

open Sys2Proof.Machine Sys2Proof.Claims

/-! ## The inverse map (R104, R106) -/

/-- The bank map of the model is the one of the rules: bank `L mod 8`, row `L div 8`. -/
theorem deintSource_eq_deintFrom (o : Nat) : deintSource o = deintFrom o := rfl

/-- Settles O39: byte o of the block DEINT writes is the source byte the bank map names. -/
theorem deintWritesBankMap : Obligations.DeintWritesBankMap := by
  unfold Obligations.DeintWritesBankMap
  intro s haddr
  have hlen : (deintLines s ++ deintTail s).length = 16384 := by
    rw [List.length_append, length_deintLines, length_deintTail]
  obtain ⟨hfinished, hkeeps⟩ := complete_frame (r := s.res) hlen
  refine ⟨_, exec_deint_of_addressable haddr, hfinished, hkeeps, fun o ho => ?_⟩
  rw [← deintSource_eq_deintFrom]
  exact holdsAt_complete s.res _ s o _ (getElem?_deint s o ho)

/-! ## The forward map (R108)

A source byte is one of the 2000 scanline bytes of its bank, which the forward map puts below 16000, or one of its 48
spare bytes, which it puts from 16000 on. -/

theorem deintTo_lt {p : Nat} (hp : p < 16384) : deintTo p < 16384 := by
  unfold deintTo
  split <;> omega

theorem deintFrom_deintTo {p : Nat} (hp : p < 16384) : deintFrom (deintTo p) = p := by
  unfold deintTo
  split
  case isTrue hline =>
    rw [deintFrom, if_pos (by omega)]
    omega
  case isFalse hspare =>
    rw [deintFrom, if_neg (by omega)]
    omega

/-! ## The permutation (R108) -/

/-- The inverse map takes every one of the 16384 offsets, and so each of them once. -/
theorem map_deintFrom_range_perm : ((List.range 16384).map deintFrom).Perm (List.range 16384) := by
  have hsubset : List.range 16384 ⊆ (List.range 16384).map deintFrom := fun p hp => by
    rw [List.mem_range] at hp
    exact List.mem_map.mpr ⟨deintTo p, List.mem_range.mpr (deintTo_lt hp), deintFrom_deintTo hp⟩
  exact ((List.nodup_range.subperm hsubset).perm_of_length_le (by rw [List.length_map])).symm

/-- A block whose byte `o` is source byte `deintFrom o` holds the source bytes in another order. -/
theorem readBytes_perm_of_deintFrom {s t : State} {a b : Nat}
    (h : ∀ o < 16384, t.readByte (b + o) = s.readByte (a + deintFrom o)) :
    (t.readBytes b 16384).Perm (s.readBytes a 16384) := by
  have hbytes : t.readBytes b 16384 = ((List.range 16384).map deintFrom).map fun p => s.readByte (a + p) := by
    rw [State.readBytes, List.map_map]
    exact List.map_congr_left fun o ho => h o (List.mem_range.mp ho)
  rw [hbytes]
  exact map_deintFrom_range_perm.map _

/-- Settles O51: byte p lands where the inverse map fetches it, and the inverse map permutes the offsets. -/
theorem deintIsPermutation : Obligations.DeintIsPermutation := by
  unfold Obligations.DeintIsPermutation
  intro s t haddr ht
  obtain ⟨t', ht', -, -, hbytes⟩ := deintWritesBankMap s haddr
  obtain rfl := Host.Outcome.next.inj (ht.symm.trans ht')
  refine ⟨fun p hp => ⟨deintTo_lt hp, ?_⟩, readBytes_perm_of_deintFrom hbytes⟩
  rw [hbytes _ (deintTo_lt hp), deintFrom_deintTo hp]

end Sys2Proof.Proofs
end

section
/-! The sprite transform (45_transform.md R109 to R116): reversed bytes, BITREV, and which byte XFORM puts where. -/

namespace Sys2Proof.Proofs

open Sys2Proof.Machine Sys2Proof.Claims

/-! ## Reversed bytes (R109, R110) -/

/-- Settles O53: bit n goes to bit 7-n and back. -/
theorem bitReversalIsInvolution : Obligations.BitReversalIsInvolution := by
  unfold Obligations.BitReversalIsInvolution
  refine fun b => byte_ext fun k hk => ?_
  rw [rev8_bit _ _ (by omega), rev8_bit _ _ (by omega), show 7 - (7 - (7 - k)) = 7 - k by omega]

/-- Settles O38: RESULT is the reversed low byte of ARG, with zeros above it. -/
theorem bitrevReversesByte : Obligations.BitrevReversesByte := by
  unfold Obligations.BitrevReversesByte
  intro s
  have hresult (n : Nat) : ((rev8 (field s.opr.arg 0 8)).setWidth 32).getLsbD n
      = (decide (n < 32) && (rev8 (field s.opr.arg 0 8)).getLsbD n) := BitVec.getLsbD_setWidth ..
  refine ⟨_, command_none _ [] s, rfl, fun n hn => (hresult n).trans ?_, fun n hn => (hresult n).trans ?_⟩
  · rw [rev8_bit _ n hn, getLsbD_field, decide_eq_true (show n < 32 by omega),
      decide_eq_true (show 7 - n < 8 by omega), Bool.true_and, Bool.true_and, Nat.zero_add]
  · rw [BitVec.getLsbD_of_ge _ n hn, Bool.and_false]

/-! ## The maps of the transform (R111, R112)

Output row `r`, byte `j` comes from row `fromRow f h r`, byte `fromByte f n j`, through `mirrorByte f`. -/

theorem fromByte_lt (f : TransformFlags) {n j : Nat} (hj : j < n) : fromByte f n j < n := by
  unfold fromByte
  split <;> omega

theorem fromRow_fromRow (f : TransformFlags) {h r : Nat} (hr : r < h) : fromRow f h (fromRow f h r) = r := by
  unfold fromRow
  split <;> omega

theorem fromByte_fromByte (f : TransformFlags) {n j : Nat} (hj : j < n) : fromByte f n (fromByte f n j) = j := by
  unfold fromByte
  split <;> omega

theorem mirrorByte_mirrorByte (f : TransformFlags) (b : Byte) : mirrorByte f (mirrorByte f b) = b := by
  unfold mirrorByte
  split
  · exact bitReversalIsInvolution b
  · rfl

/-- MIRROR_ALIGN implies MIRROR. -/
theorem mirrorByte_of_align {f : TransformFlags} (h : f.mirrorAlign = true) (b : Byte) : mirrorByte f b = rev8 b :=
  if_pos (by rw [h, Bool.or_true])

theorem mirrorByte_of_mirror {f : TransformFlags} (h : f.mirror = true) (b : Byte) : mirrorByte f b = rev8 b :=
  if_pos (by rw [h, Bool.true_or])

/-! ## XFORM (R115) -/

/-- XFORM exactly in place is no overlap. -/
theorem exec_xform_of_ready {s : State} (h : xformReady s) :
    exec .xform s = .next (complete s.res (xformBytes s) s) := by
  obtain ⟨hsize, hread, hwrite, hplace⟩ := h
  have hbad : s.rangesBad s.packedSize s.packedSize = false := rangesBad_eq_false.mpr ⟨hread, hwrite⟩
  have hoverlap : (decide (s.srcAddr ≠ s.dstAddr) && s.rangesOverlap s.packedSize s.packedSize) = false := by
    rcases hplace with hinplace | hapart
    · have hsame : s.srcAddr = s.dstAddr := congrArg BitVec.toNat hinplace
      rw [decide_eq_false (not_not.mpr hsame), Bool.false_and]
    · rw [show s.rangesOverlap s.packedSize s.packedSize = false from decide_eq_false hapart, Bool.and_false]
  refine command_of_pass ?_ _ _ s
  rw [xformCheck, decide_eq_false (sized_iff.mp hsize), hbad, hoverlap]
  rfl

/-- Every byte XFORM writes is a source byte as it was before the command, mirrored where the flags say so. -/
theorem readByte_xform {s t : State} (hready : xformReady s) (h : exec .xform s = .next t) {r j : Nat}
    (hr : r < s.opr.sprH.toNat) (hj : j < (s.opr.sprW.toNat + 7) / 8) :
    t.readByte (s.opr.dst.toNat + (r * ((s.opr.sprW.toNat + 7) / 8) + j))
      = mirrorByte s.opr.flags (s.readByte (s.opr.src.toNat
          + (fromRow s.opr.flags s.opr.sprH.toNat r * ((s.opr.sprW.toNat + 7) / 8)
            + fromByte s.opr.flags ((s.opr.sprW.toNat + 7) / 8) j))) := by
  obtain rfl := Host.Outcome.next.inj (h.symm.trans (exec_xform_of_ready hready))
  exact holdsAt_complete s.res _ s _ _ (getElem?_xformBytes s r j hr hj)

/-- Settles O37: the bits of a written byte are those of its source byte, in the order the mirror step gives them. -/
theorem xformPermutesBits : Obligations.XformPermutesBits := by
  unfold Obligations.XformPermutesBits
  intro s hready
  have hexec := exec_xform_of_ready hready
  obtain ⟨hfinished, hkeeps⟩ := complete_frame (r := s.res) (length_xformBytes s)
  refine ⟨_, hexec, hfinished, hkeeps, fun r j k hr hj hk => ?_⟩
  rw [readByte_xform hready hexec hr hj, mirrorByte_pixel _ _ hk]

/-- Settles O49: each of the three maps of the transform is its own inverse. -/
theorem transformTwiceIsIdentity : Obligations.TransformTwiceIsIdentity := by
  unfold Obligations.TransformTwiceIsIdentity
  intro s t u d hready hfirst hready' hsecond k hk
  obtain ⟨r, j, hr, hj, rfl⟩ := exists_row_column hk
  have hwritten := readByte_xform hready hfirst (fromRow_lt s.opr.flags hr) (fromByte_lt s.opr.flags hj)
  rw [fromRow_fromRow _ hr, fromByte_fromByte _ hj] at hwritten
  calc u.readByte (d.toNat + (r * ((s.opr.sprW.toNat + 7) / 8) + j))
      = mirrorByte s.opr.flags (t.readByte (s.opr.dst.toNat
          + (fromRow s.opr.flags s.opr.sprH.toNat r * ((s.opr.sprW.toNat + 7) / 8)
            + fromByte s.opr.flags ((s.opr.sprW.toNat + 7) / 8) j))) := readByte_xform hready' hsecond hr hj
    _ = s.readByte (s.opr.src.toNat + (r * ((s.opr.sprW.toNat + 7) / 8) + j)) := by
        rw [hwritten, mirrorByte_mirrorByte]

/-- Settles O50: both bytes are the reversed byte n-1-j of the same source row. -/
theorem alignReversesMirrorRows : Obligations.AlignReversesMirrorRows := by
  unfold Obligations.AlignReversesMirrorRows
  intro s t u f hready hmirror halign r j hr hj
  have haligned := readByte_xform (s := withFlags s { f with mirrorAlign := true }) hready halign hr hj
  have hmirrored := readByte_xform (s := withFlags s { f with mirror := true, mirrorAlign := false }) hready hmirror hr
    (show (s.opr.sprW.toNat + 7) / 8 - 1 - j < (s.opr.sprW.toNat + 7) / 8 by omega)
  rw [mirrorByte_of_align rfl] at haligned
  rw [mirrorByte_of_mirror rfl] at hmirrored
  exact haligned.trans hmirrored.symm

end Sys2Proof.Proofs
end

section
/-! The error state and the interrupt output (60_exceptions.md R119 to R124, R132): how an error is entered and left,
what an error changes, and when IRQ is 1. -/

namespace Sys2Proof.Proofs

open Sys2Proof.Machine Sys2Proof.Claims

/-- Settles O5: the turn is the engine's, and with nothing pending it rests. -/
theorem idleEngineChangesNothing : Obligations.IdleEngineChangesNothing := by
  unfold Obligations.IdleEngineChangesNothing
  intro s hp hturn
  calc step s
      = engineStep { s with turns := s.turns.tail } := step_of_engine hturn
    _ = .next { s with turns := s.turns.tail } := engineStep_of_idle hp

/-- Settles O24: a completion keeps ERR, so the command ended in error entry, which changes STATUS and PENDING only. -/
theorem failedCommandChangesOnlyStatus : Obligations.FailedCommandChangesOnlyStatus := by
  unfold Obligations.FailedCommandChangesOnlyStatus
  intro i s t hok hexec herr
  rcases exec_cases hexec with ⟨e, he, rfl⟩ | ⟨r, b, rfl, -⟩
  · have hcode : (errorEntry e s).status.ecode = e := if_neg (Bool.eq_false_iff.mp hok)
    exact ⟨rfl, fun hnone => he (hcode.symm.trans hnone)⟩
  · exact absurd (hok.symm.trans herr) nofun

/-! ## Leaving the error state (R123) -/

/-- Settles O14: the STATUS write leaves ERR at 0, and then a CMD write with nothing pending is accepted. -/
theorem statusWriteEndsErrorState : Obligations.StatusWriteEndsErrorState := by
  unfold Obligations.StatusWriteEndsErrorState
  intro s v c rest hidle hclear hturns
  have hstatus : step s = .next (statusWrite v { s with turns := .host (.write .reg 4 0x008 c) :: rest }) :=
    step_of_regWrite hturns rfl (by decide)
  generalize ht : statusWrite v { s with turns := .host (.write .reg 4 0x008 c) :: rest } = t at hstatus
  have herr : t.status.err = false := by rw [← ht, statusWrite_err, hclear, Bool.not_true, Bool.and_false]
  have hcode : t.status.ecode = .none := by rw [← ht, statusWrite_ecode, if_pos hclear]
  have hidle' : t.busy = false := ht ▸ hidle
  obtain ⟨-, -, haccepted⟩ := cmdWriteHasThreeOutcomes t c rest (ht ▸ rfl)
  exact ⟨t, _, hstatus, haccepted hidle' herr, ht ▸ rfl, herr, hcode, ht ▸ rfl, ht ▸ rfl, rfl, rfl⟩

/-! ## Register-write errors (R33, R34, R120) -/

/-- While nothing is pending a register that takes writes only then stores its value or refuses it (R68). -/
theorem regWrite_of_idle {r : Reg} {s : State} (hk : writeKind r = .whenIdle) (hidle : s.busy = false) (v : Word) :
    regWrite r v s = regStore r v s := by
  rw [regWrite, hk]
  exact if_neg (Bool.eq_false_iff.mp hidle)

/-- An INKMAP write whose CODE names no hardware colour is refused (R34). -/
theorem regStore_inkmap_of_codeRange {off : Nat} {v : Word} (h : regOffsetOk off) (hlo : 0x200 ≤ off)
    (hhi : off ≤ 0x23C) (hcode : 26 < v.toNat % 32) (s : State) :
    regStore (regAt off) v s = registerError .inkRange s := by
  rcases regOffset_cases h with ⟨k, hk, rfl⟩ | ⟨c, rfl⟩ | ⟨_, _, -⟩ | ⟨i, rfl⟩ | ⟨_, -⟩
  case inr.inr.inr.inl =>
    rw [regAt_inkmap]
    exact if_pos (by rwa [inkEntryOf_code_toNat])
  case inr.inl => have := c.isLt; unfold Config.hwpalSize at this; omega
  all_goals omega

/-- The window behind HWPAL has no entry to write (R33). -/
theorem regAt_hwpalHole {off : Nat} (h : regOffsetOk off) (hlo : 0x16C ≤ off) (hhi : off ≤ 0x1FC) :
    regAt off = .hwpalHole := by
  rcases regOffset_cases h with ⟨k, hk, rfl⟩ | ⟨c, rfl⟩ | ⟨-, -, e⟩ | ⟨i, rfl⟩ | ⟨_, -⟩
  case inr.inr.inl => exact e
  case inr.inl => have := c.isLt; unfold Config.hwpalSize at this; omega
  all_goals omega

/-- Settles O15: while nothing is pending the palette refuses the write, and while a command is pending the write is
discarded like any other to these offsets. -/
theorem paletteRangeErrors : Obligations.PaletteRangeErrors := by
  unfold Obligations.PaletteRangeErrors
  intro s off v rest e hturns h4 hrange
  have hoff : regOffsetOk off := ⟨h4, by omega⟩
  have htakes : takesWritesWhenIdle off := by unfold takesWritesWhenIdle; omega
  have hrefused (u : State) : regStore (regAt off) v u = registerError e u := by
    rcases hrange with ⟨hlo, hhi, hcode, rfl⟩ | ⟨hlo, hhi, rfl⟩
    · exact regStore_inkmap_of_codeRange hoff hlo hhi hcode u
    · rw [regAt_hwpalHole hoff hlo hhi]
      rfl
  refine ⟨fun hidle => ?_, fun hbusy => ?_⟩
  · have hkind := writeKind_of_takesWritesWhenIdle hoff htakes
    rw [step_of_regWrite hturns hoff.1 hoff.2, regWrite_of_idle (s := { s with turns := rest }) hkind hidle, hrefused]
    rfl
  · obtain ⟨hdiscarded, -⟩ := registerWritesWhileBusy s off v rest hturns hoff
    exact hdiscarded hbusy htakes

/-! ## The interrupt output (R124) -/

/-- IRQEN shifted by one selects the three flags of STATUS, whatever BUSY and ECODE are. -/
theorem statusWord_and_irqEnable (s : State) :
    s.statusWord &&& (s.irqen.word <<< 1)
      = placeBit (s.status.done && s.irqen.doneie) 1 ||| placeBit (s.status.err && s.irqen.errie) 2
          ||| placeBit (s.status.ovr && s.irqen.ovrie) 3 := by
  refine word_ext fun i hi => ?_
  simp only [State.statusWord, IrqEnable.word, BitVec.getLsbD_and, BitVec.getLsbD_or, BitVec.getLsbD_shiftLeft,
    getLsbD_place, getLsbD_placeBit, Nat.reduceLT]
  by_cases hflag : i = 1 ∨ i = 2 ∨ i = 3
  · rcases hflag with rfl | rfl | rfl <;> simp
  · have h1 : i ≠ 1 := by omega
    have h2 : i ≠ 2 := by omega
    have h3 : i ≠ 3 := by omega
    by_cases hzero : i = 0
    · simp [hzero]
    · simp [h1, h2, h3, show i - 1 ≠ 0 by omega, show i - 1 ≠ 1 by omega, show i - 1 ≠ 2 by omega]

/-- A word of three flags is 0 when none of them is set. -/
theorem threeFlags_ne_zero (b1 b2 b3 : Bool) :
    placeBit b1 1 ||| placeBit b2 2 ||| placeBit b3 3 ≠ 0 ↔ (b1 || b2 || b3) = true := by
  revert b1 b2 b3
  decide

/-- Settles O18: the common bits of the two words are the flags whose enables are set. -/
theorem irqFollowsStatusAndEnable : Obligations.IrqFollowsStatusAndEnable := by
  unfold Obligations.IrqFollowsStatusAndEnable
  intro s
  have hcommon : regRead (regAt 0x00C) s &&& (regRead (regAt 0x010) s <<< 1) = _ := statusWord_and_irqEnable s
  rw [hcommon, threeFlags_ne_zero]
  rfl

end Sys2Proof.Proofs
end

section
/-! The error classes of the commands (60_exceptions.md R118, R122): the mode, the argument, the geometry, the
addresses and the overlap of the ranges, each looked at only where the classes before it pass (40_command_engine.md
R69). -/

namespace Sys2Proof.Proofs

open Sys2Proof.Machine Sys2Proof.Claims

/-- A command whose checks fail with a code ends in error entry with that code (R119). -/
theorem command_of_failure {err : Option ErrorCode} {e : ErrorCode} (h : err = some e) (r : ResultRegs)
    (b : List Byte) (s : State) : command err r b s = .next (failed e s) := by
  rw [h]
  exact command_some e r b s

/-! ## Modes and arguments (R99, R100, R103) -/

theorem modeBad_eq_true {s : State} (h : s.opr.mode.mode = 3) : modeBad s = true := beq_iff_eq.mpr h

/-- Where the mode is looked at first, mode 3 is the failure. -/
theorem firstFailure_badMode {s : State} (h : s.opr.mode.mode = 3) (l : List (Bool × ErrorCode)) :
    firstFailure ((modeBad s, .badMode) :: l) = some .badMode := by
  rw [modeBad_eq_true h, firstFailure_fail]

/-- Settles O30: each of these checks is the command's first. -/
theorem modeAndArgErrors : Obligations.ModeAndArgErrors := by
  unfold Obligations.ModeAndArgErrors
  intro s
  refine ⟨fun hmode => ⟨?_, ?_⟩, fun harg => ?_⟩
  · exact command_of_failure (firstFailure_badMode hmode _) _ _ s
  · exact command_of_failure (firstFailure_badMode hmode _) _ _ s
  · refine command_of_failure ?_ _ _ s
    rw [pallookCheck, decide_eq_true harg, firstFailure_fail]

/-! ## Geometry, addresses, overlap

The three classes of a command that reads `n` bytes at SRC and writes `m` bytes at DST. `ok` is its geometry in the
words of the rules, and `bad` is what the model checks for. -/

section Classes

variable {ok bad : Prop} [Decidable bad] {s : State} {n m : Nat}

theorem rangesBad_of_not_inside (h : ¬ (inside s s.opr.src.toNat n ∧ inside s s.opr.dst.toNat m)) :
    s.rangesBad n m = true :=
  Bool.of_not_eq_false fun hpass => h (rangesBad_eq_false.mp hpass)

theorem firstFailure_badGeom (hiff : ok ↔ ¬ bad) (h : ¬ ok) (l : List (Bool × ErrorCode)) :
    firstFailure ((decide bad, .badGeom) :: l) = some .badGeom := by
  have hbad : bad := by_contra fun hgood => h (hiff.mpr hgood)
  rw [decide_eq_true hbad, firstFailure_fail]

theorem firstFailure_badAddr (hiff : ok ↔ ¬ bad) (hok : ok)
    (h : ¬ (inside s s.opr.src.toNat n ∧ inside s s.opr.dst.toNat m)) (l : List (Bool × ErrorCode)) :
    firstFailure ((decide bad, .badGeom) :: (s.rangesBad n m, .badAddr) :: l) = some .badAddr := by
  rw [decide_eq_false (hiff.mp hok), rangesBad_of_not_inside h, firstFailure_pass, firstFailure_fail]

theorem firstFailure_overlap (hiff : ok ↔ ¬ bad) (hok : ok)
    (hin : inside s s.opr.src.toNat n ∧ inside s s.opr.dst.toNat m) {met : Bool} (hmet : met = true) :
    firstFailure [(decide bad, .badGeom), (s.rangesBad n m, .badAddr), (met, .overlap)] = some .overlap := by
  rw [decide_eq_false (hiff.mp hok), rangesBad_eq_false.mpr hin, hmet, firstFailure_pass, firstFailure_pass,
    firstFailure_fail]

/-- All commands but XFORM look at nothing else than whether the ranges meet (R47). -/
theorem firstFailure_meet (hiff : ok ↔ ¬ bad) (hok : ok)
    (h : inside s s.opr.src.toNat n ∧ inside s s.opr.dst.toNat m ∧ meet s.opr.src.toNat n s.opr.dst.toNat m) :
    firstFailure [(decide bad, .badGeom), (s.rangesBad n m, .badAddr), (s.rangesOverlap n m, .overlap)]
      = some .overlap := by
  obtain ⟨hread, hwrite, hmeet⟩ := h
  exact firstFailure_overlap hiff hok ⟨hread, hwrite⟩ (overlaps_iff.mpr hmeet)

end Classes

/-! ## The geometry each command checks -/

theorem encodeGeometry_iff {s : State} : (sized s ∧ gridded s ∧ tileInGrid s)
    ↔ ¬ (s.spriteW = 0 ∨ s.spriteH = 0 ∨ s.gridW = 0 ∨ s.gridH = 0
      ∨ s.gridW < s.orgX + s.spriteW ∨ s.gridH < s.orgY + s.spriteH) := by
  unfold sized gridded tileInGrid State.spriteW State.spriteH State.gridW State.gridH State.orgX State.orgY
  omega

theorem sheetGeometry_iff {s : State} :
    (sized s ∧ gridded s) ↔ ¬ (s.spriteW = 0 ∨ s.spriteH = 0 ∨ s.gridW = 0 ∨ s.gridH = 0) := by
  unfold sized gridded State.spriteW State.spriteH State.gridW State.gridH
  omega

/-- LINES fits the screen (R103). -/
def linesOk (s : State) : Prop :=
  0 < s.opr.lines.toNat ∧ (s.opr.mode.deint = true → s.opr.lines.toNat ≤ 200)

theorem linesOk_iff {s : State} :
    linesOk s ↔ ¬ (s.lineCount = 0 ∨ (s.opr.mode.deint = true ∧ Config.screenLines < s.lineCount)) := by
  rw [linesOk, not_or, not_and, Nat.not_lt]
  exact and_congr_left' Nat.pos_iff_ne_zero

/-- In a legal mode the checks of DECODE are the three classes (R103). -/
theorem decodeCheck_of_legal {s : State} (h : s.opr.mode.mode ≠ 3) :
    decodeCheck s = firstFailure
      [(decide (s.lineCount = 0 ∨ (s.opr.mode.deint = true ∧ Config.screenLines < s.lineCount)), .badGeom),
       (s.rangesBad (screenSpan s) (gridSpan s), .badAddr),
       (s.rangesOverlap (screenSpan s) (gridSpan s), .overlap)] := by
  rw [decodeCheck, modeBad_eq_false h, firstFailure_pass, gridSpan_eq_decodeSize h]
  rfl

/-- DEINT has no geometry of its own, so its checks are the three classes with the first always passed (R107). -/
theorem deintCheck_eq (s : State) :
    deintCheck s = firstFailure
      [(decide False, .badGeom), (s.rangesBad 16384 16384, .badAddr), (s.rangesOverlap 16384 16384, .overlap)] := by
  rw [decide_eq_false not_false, firstFailure_pass]
  rfl

theorem sheetSize_eq {s : State} {nc nr : Nat} (hsize : sized s) (hnc : tilesAcross s nc) (hnr : tilesDown s nr) :
    s.sheetSize = nc * nr * spriteSpan s := by
  rw [State.sheetSize, tileCols_eq_of_tilesAcross hsize hnc, tileRows_eq_of_tilesDown hsize hnr]
  rfl

/-! ## The three classes, command by command -/

/-- Settles O27: the geometry is the first class, so it fails whatever the addresses are. -/
theorem geometryErrors : Obligations.GeometryErrors := by
  unfold Obligations.GeometryErrors
  intro s
  refine ⟨fun hsize => ⟨?pack, ?unpack, ?xform⟩, fun hsize => ⟨?encode, ?sheet⟩, fun htile => ?tile,
    fun hmode hlines => ?decode⟩
  case pack => exact command_of_failure (firstFailure_badGeom sized_iff hsize _) _ _ s
  case unpack => exact command_of_failure (firstFailure_badGeom sized_iff hsize _) _ _ s
  case xform => exact command_of_failure (firstFailure_badGeom sized_iff hsize _) _ _ s
  case encode =>
    have hgeom : ¬ (sized s ∧ gridded s ∧ tileInGrid s) := fun ⟨hs, hg, _⟩ => hsize ⟨hs, hg⟩
    exact command_of_failure (firstFailure_badGeom encodeGeometry_iff hgeom _) _ _ s
  case sheet => exact command_of_failure (firstFailure_badGeom sheetGeometry_iff hsize _) _ _ s
  case tile =>
    have hgeom : ¬ (sized s ∧ gridded s ∧ tileInGrid s) := fun ⟨_, _, ht⟩ => htile ht
    exact command_of_failure (firstFailure_badGeom encodeGeometry_iff hgeom _) _ _ s
  case decode =>
    have hbad : ¬ linesOk s := by
      rintro ⟨hpos, hbanked⟩
      rcases hlines with hzero | ⟨hdeint, hmany⟩
      · simp [hzero] at hpos
      · exact Nat.not_lt.mpr (hbanked hdeint) hmany
    exact command_of_failure ((decodeCheck_of_legal hmode).trans (firstFailure_badGeom linesOk_iff hbad _)) _ _ s

/-- Settles O28: the addresses are the class after the geometry, and come before the overlap. -/
theorem addressErrors : Obligations.AddressErrors := by
  unfold Obligations.AddressErrors
  intro s
  refine ⟨?matchPixel, ?pack, ?unpack, ?xform, ?encode, ?sheet, ?deint, ?decode⟩
  case matchPixel =>
    intro hout
    have hin : s.inBuf s.srcAddr s.channels = false := Bool.eq_false_iff.mpr fun h => hout (inBuf_iff.mp h)
    refine command_of_failure ?_ _ _ s
    rw [matchCheck, hin, Bool.not_false, firstFailure_fail]
  case pack =>
    exact fun hsize hout => command_of_failure (firstFailure_badAddr sized_iff hsize hout _) _ _ s
  case unpack =>
    exact fun hsize hout => command_of_failure (firstFailure_badAddr sized_iff hsize hout _) _ _ s
  case xform =>
    exact fun hsize hout => command_of_failure (firstFailure_badAddr sized_iff hsize hout _) _ _ s
  case encode =>
    exact fun hsize hgrid htile hout =>
      command_of_failure (firstFailure_badAddr encodeGeometry_iff ⟨hsize, hgrid, htile⟩ hout _) _ _ s
  case sheet =>
    intro nc nr hnc hnr hsize hgrid hout
    rw [← sheetSize_eq hsize hnc hnr] at hout
    exact command_of_failure (firstFailure_badAddr sheetGeometry_iff ⟨hsize, hgrid⟩ hout _) _ _ s
  case deint =>
    exact fun hout => command_of_failure
      ((deintCheck_eq s).trans (firstFailure_badAddr (iff_of_true trivial not_false) trivial hout _)) _ _ s
  case decode =>
    exact fun hmode hpos hbanked hout => command_of_failure
      ((decodeCheck_of_legal hmode).trans (firstFailure_badAddr linesOk_iff ⟨hpos, hbanked⟩ hout _)) _ _ s

/-- Settles O29: the overlap is the last class; XFORM looks at it only where SRC and DST differ. -/
theorem overlapErrors : Obligations.OverlapErrors := by
  unfold Obligations.OverlapErrors
  intro s src dst both
  refine ⟨?pack, ?unpack, ?xform, ?encode, ?sheet, ?deint, ?decode⟩
  case pack => exact fun hsize hboth => command_of_failure (firstFailure_meet sized_iff hsize hboth) _ _ s
  case unpack => exact fun hsize hboth => command_of_failure (firstFailure_meet sized_iff hsize hboth) _ _ s
  case xform =>
    rintro hsize hne ⟨hread, hwrite, hmeet⟩
    have hmet : (decide (s.srcAddr ≠ s.dstAddr) && s.rangesOverlap s.packedSize s.packedSize) = true :=
      Bool.and_eq_true_iff.mpr ⟨decide_eq_true hne, overlaps_iff.mpr hmeet⟩
    exact command_of_failure (firstFailure_overlap sized_iff hsize ⟨hread, hwrite⟩ hmet) _ _ s
  case encode =>
    exact fun hsize hgrid htile hboth =>
      command_of_failure (firstFailure_meet encodeGeometry_iff ⟨hsize, hgrid, htile⟩ hboth) _ _ s
  case sheet =>
    intro nc nr hnc hnr hsize hgrid hboth
    rw [← sheetSize_eq hsize hnc hnr] at hboth
    exact command_of_failure (firstFailure_meet sheetGeometry_iff ⟨hsize, hgrid⟩ hboth) _ _ s
  case deint =>
    exact fun hboth => command_of_failure
      ((deintCheck_eq s).trans (firstFailure_meet (iff_of_true trivial not_false) trivial hboth)) _ _ s
  case decode =>
    exact fun hmode hpos hbanked hboth => command_of_failure
      ((decodeCheck_of_legal hmode).trans (firstFailure_meet linesOk_iff ⟨hpos, hbanked⟩ hboth)) _ _ s

end Sys2Proof.Proofs
end

section
/-! Reset and the hazards (70_reset_and_hazards.md R133, R134, R138): what a reset leaves in the registers and in BUF,
and the host accesses to BUF that a pending command forbids. -/

namespace Sys2Proof.Proofs

open Sys2Proof.Machine Sys2Proof.Claims

/-! ## Accesses to BUF while a command is pending (R138) -/

theorem accessFault_buf_of_busy {a : HostAccess} {s : State} {size off : Nat} {v : Word}
    (ha : a = .read .buf size off ∨ a = .write .buf size off v) (hbusy : s.busy = true) :
    accessFault a s = some .hostBufWhileBusy :=
  calc accessFault a s
      = bufFault s size off := accessFault_eq_read ha s
    _ = some .hostBufWhileBusy := if_pos hbusy

/-- Settles O13: BUSY is looked at before the size and the offset of the access. -/
theorem bufAccessWhileBusyFaults : Obligations.BufAccessWhileBusyFaults := by
  unfold Obligations.BufAccessWhileBusyFaults
  rintro s a rest hbusy hturns (⟨size, off, ha⟩ | ⟨size, off, v, ha⟩)
  · exact step_of_accessFault hturns (accessFault_buf_of_busy (v := 0) (.inl ha) hbusy)
  · exact step_of_accessFault hturns (accessFault_buf_of_busy (.inr ha) hbusy)

/-! ## The registers after a reset (R38, R133) -/

/-- `t` is the reset state but for BUF, its size, the schedule, the host's datum and the numbers of the free draws. -/
def registersReset (t : State) : Prop :=
  t = { State.reset with
    buf := t.buf, bufLast := t.bufLast, turns := t.turns, readData := t.readData, powerOns := t.powerOns,
    abandons := t.abandons }

theorem warmReset_registersReset (s : State) : registersReset (warmReset s) := rfl

theorem powerOn_registersReset (s : State) : registersReset (powerOn s) := rfl

theorem regRead_of_registersReset {t : State} (h : registersReset t) (r : Reg) :
    regRead r t = regRead r State.reset := by
  rw [h]
  cases r <;> rfl

theorem pending_of_registersReset {t : State} (h : registersReset t) : t.pending = none := congrArg State.pending h

theorem irq_of_registersReset {t : State} (h : registersReset t) : t.irq = false := congrArg State.irq h

/-- Both kinds of reset take one step, and that step resets the registers. -/
theorem step_registersReset {s : State} {rest : List Turn}
    (h : s.turns = .reset :: rest ∨ s.turns = .powerOn :: rest) :
    ∃ t, step s = .next t ∧ registersReset t ∧ t.turns = rest ∧ t.bufLast = s.bufLast := by
  rcases h with h | h
  · exact ⟨warmReset { s with turns := rest }, step_of_turn h, warmReset_registersReset _, rfl, rfl⟩
  · exact ⟨powerOn { s with turns := rest }, step_of_turn h, powerOn_registersReset _, rfl, rfl⟩

/-- Settles O21: the registers read as those of the reset state, and those hold the values of R17. -/
theorem resetInOneStep : Obligations.ResetInOneStep := by
  unfold Obligations.ResetInOneStep
  intro s rest hturns
  obtain ⟨hvalues, -, -⟩ := resetRegisterValues
  obtain ⟨t, hstep, hreset, hrest, hlast⟩ := step_registersReset hturns
  have hpending := pending_of_registersReset hreset
  exact ⟨t, hstep, fun off hoff => (regRead_of_registersReset hreset _).trans (hvalues off hoff), hpending,
    busy_eq_false_iff.mpr hpending, irq_of_registersReset hreset, hrest, hlast⟩

/-! ## The bytes a warm reset abandons (R134) -/

@[simp] theorem length_abandonedBytes (s : State) : (abandonedBytes s).length = abandonedSize s := by
  simp [abandonedBytes]

/-- A sprite that has bytes has two sides that are not 0 (R50). -/
theorem sized_of_spriteSpan_ne_zero {s : State} (h : spriteSpan s ≠ 0) : sized s := by
  obtain ⟨hrow, hh⟩ := Nat.mul_ne_zero_iff.mp h
  exact ⟨by omega, Nat.pos_of_ne_zero hh⟩

/-- Where the sprites have no bytes the tile counts do not matter, and elsewhere the rules fix them (R89, R90). -/
theorem sheetSize_eq_of_writesSpan {s : State} {n : Nat} (h : writesSpan s .sheet n) : s.sheetSize = n := by
  by_cases hspan : spriteSpan s = 0
  · have hn : n = 0 := by
      rcases h with ⟨-, hn⟩ | ⟨nc, nr, -, -, hn⟩
      · exact hn
      · rw [hn, hspan, Nat.mul_zero]
    calc s.tileCols * s.tileRows * spriteSpan s
        = 0 := by rw [hspan, Nat.mul_zero]
      _ = n := hn.symm
  · rcases h with ⟨hzero, -⟩ | ⟨nc, nr, hnc, hnr, hn⟩
    · exact absurd hzero hspan
    · exact (sheetSize_eq (sized_of_spriteSpan_ne_zero hspan) hnc hnr).trans hn.symm

/-- The output size of DECODE, which is 0 in the mode no rule gives a size (R102). -/
theorem decodeSize_eq_of_writesSpan {s : State} {n : Nat} (h : writesSpan s .decode n) : s.decodeSize = n := by
  by_cases hmode : s.opr.mode.mode = 3
  · calc s.decodeSize
        = 0 := by rw [State.decodeSize, hmode, show outWidth 3 = 0 from rfl, Nat.zero_mul, Nat.zero_mul]
      _ = n := (h.trans (if_pos hmode)).symm
  · calc s.decodeSize
        = gridSpan s := (gridSpan_eq_decodeSize hmode).symm
      _ = n := (h.trans (if_neg hmode)).symm

/-- The size the model gives a write range is the one the rules of its command give it. -/
theorem writeSize_eq_of_writesSpan {s : State} {i : Instr} {n : Nat} (h : writesSpan s i n) : writeSize i s = n := by
  cases i with
  | nop | matchPixel | bitrev | pallook | pixidx | pack | encode | xform | unpack | deint => exact h.symm
  | sheet => exact sheetSize_eq_of_writesSpan h
  | decode => exact decodeSize_eq_of_writesSpan h

theorem abandonedSize_of_command {s : State} {w : Word} {i : Instr} (hp : s.pending = some w)
    (hd : decode w = .ok i) : abandonedSize s = min (writeSize i s) (s.bufSize - s.dstAddr) := by
  simp only [abandonedSize, hp, hd]

theorem abandonedSize_of_illegal {s : State} {w : Word} {e : DecodeError} (hp : s.pending = some w)
    (hd : decode w = .error e) : abandonedSize s = 0 := by
  simp only [abandonedSize, hp, hd]

/-- A warm reset changes only the bytes it abandons, and so none outside a range that holds them. -/
theorem warmReset_keepsOutside {s : State} {n : Nat} (h : abandonedSize s ≤ n) :
    keepsOutside s (warmReset s) s.opr.dst.toNat n := by
  intro x hx
  refine readByte_writeBlock_outside (warmReset_buf s) (warmReset_powerOns s) ?_
  rw [length_abandonedBytes]
  unfold State.dstAddr
  omega

/-- Settles O22, by what is pending. -/
theorem resetKeepsBuf : Obligations.ResetKeepsBuf := by
  unfold Obligations.ResetKeepsBuf
  intro s rest hturns
  refine ⟨warmReset { s with turns := rest }, step_of_turn hturns, fun hp => ?idle, fun w i n hp hd hn => ?command,
    fun w e hp hd x => ?illegal⟩
  case idle => exact warmReset_readByte_of_idle (s := { s with turns := rest }) hp
  case command =>
    refine warmReset_keepsOutside (s := { s with turns := rest }) ?_
    calc abandonedSize { s with turns := rest }
        ≤ writeSize i s := (abandonedSize_of_command hp hd).trans_le (Nat.min_le_left _ _)
      _ = n := writeSize_eq_of_writesSpan hn
  case illegal =>
    have hnone : abandonedSize { s with turns := rest } ≤ 0 := (abandonedSize_of_illegal hp hd).le
    exact warmReset_keepsOutside hnone x (by omega)

end Sys2Proof.Proofs
end
